-- ==== Sys2Proof/Word.lean ====
section
/-! DEFINITION. The words the block is written with: 32-bit registers (R21, R24), bytes (R9), and the three
segment placements a command can name (R82). -/

namespace Sys2Proof

/-- A register value; `XLEN` = 32 (R5). Bit 0 is the least significant bit (R11). -/
abbrev Word := BitVec 32

/-- A buffer cell (R50); also an ERRFIELD value (R26). -/
abbrev Byte := BitVec 8

/-- R82: "an enum {FIRST, MID, LAST}"; there are no combined states (R148). -/
inductive Place where
  | first
  | mid
  | last
  deriving DecidableEq, Repr

end Sys2Proof
end

