-- ==== Sys2Proof/Config.lean ====
section
/-! DEFINITION. The configuration of one instance (R5): the sizes this hardware takes, the parameters `WINDOW`, `TTL`,
`IP_ID`, `IPW` and `BASE`, and the two values the spec leaves OPEN, which are constants with no body. -/

namespace Sys2Proof

/-- R5 `WMAX`: the largest ENCODE width the block implements. -/
abbrev wmax : Nat := 32

/-- R5 `PBUF_SIZE`. -/
abbrev pbufSize : Nat := 65536

/-- R5 `OBUF_SIZE`. -/
abbrev obufSize : Nat := 65536

/-- R5 `IPW`: the 13 IPv4 field widths, in header order (the rows of R74). -/
structure IpWidths where
  version        : Nat
  headerLength   : Nat
  dscp           : Nat
  ecn            : Nat
  totalLength    : Nat
  identification : Nat
  flags          : Nat
  fragmentOffset : Nat
  ttl            : Nat
  protocol       : Nat
  checksum       : Nat
  source         : Nat
  destination    : Nat
  deriving DecidableEq, Repr

/-- The default widths of R5 and R74. -/
def IpWidths.standard : IpWidths where
  version        := 4
  headerLength   := 4
  dscp           := 6
  ecn            := 2
  totalLength    := 16
  identification := 16
  flags          := 3
  fragmentOffset := 13
  ttl            := 8
  protocol       := 8
  checksum       := 16
  source         := 32
  destination    := 32

/-- `IPW[0] + ... + IPW[12]`, the sum R163 checks. -/
def IpWidths.sum (w : IpWidths) : Nat :=
  w.version + w.headerLength + w.dscp + w.ecn + w.totalLength + w.identification + w.flags + w.fragmentOffset
    + w.ttl + w.protocol + w.checksum + w.source + w.destination

/-- R5: the configuration a model of the block takes. The values are natural numbers, so that a value which does not
fit its field can be configured and is reported (U2, U5), never truncated. -/
structure Config where
  window : Nat
  ttl    : Nat
  ipId   : Nat
  ipw    : IpWidths
  base   : Nat
  deriving DecidableEq, Repr

/-- R5 `IP_ID`: OPEN, "arbitrary but stable"; it "fits 16 bits in every conforming configuration". No value can be
proved of it. -/
opaque Config.openIpId : BitVec 16

/-- R5 `BASE`: OPEN, where the platform places the block on its bus. No value can be proved of it. -/
opaque Config.openBase : Nat

/-- The configuration of this hardware: the column "value" of R5. -/
def Config.standard : Config where
  window := 65535
  ttl    := 255
  ipId   := Config.openIpId.toNat
  ipw    := IpWidths.standard
  base   := Config.openBase

/-- A configuration with the default values of R5 and any conforming `IP_ID`. -/
abbrev Config.IsDefault (c : Config) : Prop :=
  c.window = 65535 ∧ c.ttl = 255 ∧ c.ipw = IpWidths.standard ∧ c.ipId < 65536

end Sys2Proof
end

