-- ==== Sys2Proof/Syntax.lean ====
section
/-! DEFINITION. The five commands (R72), one constructor per row of the command map. -/

namespace Sys2Proof

/-- R72: "One command per component of the source." All other operands come from registers and PBUF (R71). -/
inductive Instr where
  /-- OP 1, ENCODE (R100): `padRight` is `PADR = 1`, `width` is `WIDTH`. -/
  | encode (padRight : Bool) (width : Nat)
  /-- OP 2, CSUM (R121). -/
  | csum
  /-- OP 3, TCPHDR (R140): `place` is `PLACE`. -/
  | tcphdr (place : Place)
  /-- OP 4, IPHDR (R160). -/
  | iphdr
  /-- OP 5, ASSEMBLE (R180): `place` is `PLACE`. -/
  | assemble (place : Place)
  deriving DecidableEq, Repr

end Sys2Proof
end

