-- ==== Sys2Proof/WellFormed.lean ====
section
/-! DEFINITION. Which terms of `Instr` a legal command word spells. -/

namespace Sys2Proof

/-- R72: "ENCODE needs `WIDTH <= 32`". The condition `PLACE <= 2` is the type `Place` itself. -/
def WellFormed : Instr → Bool
  | .encode _ width => width ≤ wmax
  | .csum => true
  | .tcphdr _ => true
  | .iphdr => true
  | .assemble _ => true

end Sys2Proof
end

