-- ==== Sys2Proof/Decode.lean ====
section
/-! DEFINITION. The command word: its fields (R70, R71), the command map (R72), the illegal words in their order (R73),
and the encoder written from the same rules. -/

namespace Sys2Proof

/-- R73: why a word spells no command, in the order the conditions are tried. -/
inductive IllegalWord where
  /-- `OP` is 0 or 6 to 15. -/
  | noCommand
  /-- A bit outside `OP` and the fields the command uses is 1. -/
  | mustBeZero
  /-- TCPHDR or ASSEMBLE with `PLACE = 3`. -/
  | placement
  /-- ENCODE with `WIDTH > 32`. -/
  | width
  deriving DecidableEq, Repr

/-- The ERRFIELD column of R73. -/
def IllegalWord.errfield : IllegalWord → Byte
  | .noCommand => 1
  | .mustBeZero => 2
  | .placement => 3
  | .width => 4

/-- R71: `OP = c[3:0]`. -/
def opField (c : Word) : Nat := (c.extractLsb' 0 4).toNat

/-- R71: `PLACE = c[5:4]`. -/
def placeField (c : Word) : Nat := (c.extractLsb' 4 2).toNat

/-- R71: `PADR = c[6]`; ENCODE's `padRight` is `PADR = 1`. -/
def padrField (c : Word) : Bool := c.getLsbD 6

/-- R71: `WIDTH = c[13:8]`. -/
def widthField (c : Word) : Nat := (c.extractLsb' 8 6).toNat

/-- R82: FIRST = 0, MID = 1, LAST = 2; 3 spells no placement. -/
def placeOfField : Nat → Option Place
  | 0 => some .first
  | 1 => some .mid
  | 2 => some .last
  | _ => none

/-- R82, the other way. -/
def fieldOfPlace : Place → Nat
  | .first => 0
  | .mid => 1
  | .last => 2

/-- One row of R72: a word `c` spells the command of a row when `c AND mask = match`. -/
structure CommandRow where
  mnemonic : String
  pattern  : Word
  mask     : Word
  deriving DecidableEq, Repr

def encodeRow : CommandRow := ⟨"ENCODE", 0x00000001#32, 0xFFFFC0BF#32⟩
def csumRow : CommandRow := ⟨"CSUM", 0x00000002#32, 0xFFFFFFFF#32⟩
def tcphdrRow : CommandRow := ⟨"TCPHDR", 0x00000003#32, 0xFFFFFFCF#32⟩
def iphdrRow : CommandRow := ⟨"IPHDR", 0x00000004#32, 0xFFFFFFFF#32⟩
def assembleRow : CommandRow := ⟨"ASSEMBLE", 0x00000005#32, 0xFFFFFFCF#32⟩

/-- R72, the command map. -/
def commandMap : List CommandRow := [encodeRow, csumRow, tcphdrRow, iphdrRow, assembleRow]

/-- R72: `c AND mask = match`. -/
def CommandRow.spells (r : CommandRow) (c : Word) : Bool := c &&& r.mask == r.pattern

/-- The row of R72 that an instruction belongs to. -/
def rowOf : Instr → CommandRow
  | .encode _ _ => encodeRow
  | .csum => csumRow
  | .tcphdr _ => tcphdrRow
  | .iphdr => iphdrRow
  | .assemble _ => assembleRow

/-- ENCODE after its `OP` is known: conditions 2 and 4 of R73. -/
def decodeEncode (c : Word) : Except IllegalWord Instr :=
  if encodeRow.spells c then
    if widthField c ≤ wmax then .ok (.encode (padrField c) (widthField c)) else .error .width
  else .error .mustBeZero

/-- CSUM and IPHDR use no field: condition 2 of R73. -/
def decodePlain (row : CommandRow) (i : Instr) (c : Word) : Except IllegalWord Instr :=
  if row.spells c then .ok i else .error .mustBeZero

/-- TCPHDR and ASSEMBLE use `PLACE`: conditions 2 and 3 of R73. -/
def decodePlaced (row : CommandRow) (mk : Place → Instr) (c : Word) : Except IllegalWord Instr :=
  if row.spells c then
    match placeOfField (placeField c) with
    | some p => .ok (mk p)
    | none => .error .placement
  else .error .mustBeZero

/-- R72 and R73: "every word is either one of the five commands or illegal". -/
def decode (c : Word) : Except IllegalWord Instr :=
  match opField c with
  | 1 => decodeEncode c
  | 2 => decodePlain csumRow .csum c
  | 3 => decodePlaced tcphdrRow .tcphdr c
  | 4 => decodePlain iphdrRow .iphdr c
  | 5 => decodePlaced assembleRow .assemble c
  | _ => .error .noCommand

/-- The word that spells an instruction: R100 `1 + 64*PADR + 256*WIDTH`, R121 `2`, R140 `3 + 16*PLACE`, R160 `4`,
R180 `5 + 16*PLACE`. -/
def encode : Instr → Word
  | .encode padRight width => BitVec.ofNat 32 (1 + 64 * padRight.toNat + 256 * width)
  | .csum => 2
  | .tcphdr place => BitVec.ofNat 32 (3 + 16 * fieldOfPlace place)
  | .iphdr => 4
  | .assemble place => BitVec.ofNat 32 (5 + 16 * fieldOfPlace place)

/-- The command word whose low `nbits` bits are those of `w` and whose other bits are 0. Every command is one 32-bit
word (R83), carried whole by the CMD write, so there is no byte order (R51). -/
def commandWord (nbits w : Nat) : Word := BitVec.ofNat 32 (w % 2 ^ nbits)

/-- The instruction the decoder reads from a table word; none where it refuses. No command is longer than 32 bits
(R83). -/
def decodeTableWord (nbits w : Nat) : Option Instr :=
  if 32 < nbits then none
  else
    match decode (commandWord nbits w) with
    | .ok i => some i
    | .error _ => none

end Sys2Proof
end

