-- ==== Sys2Proof/Machine/State.lean ====
section
/-! DEFINITION. The state of one instance: the registers, buffers and configuration of R20, and the host port's own two
fields (what the host is about to do, and what its last access gave back). -/

namespace Sys2Proof.Machine

/-- The register numbers 0 to 15 by name (R21, R24). No other register exists, and none can be named (U6). -/
inductive Reg where
  | srcaddr
  | dstaddr
  | sport
  | dport
  | seq
  | ackn
  | plen
  | rstat
  | val
  | clen
  | cmd
  | status
  | res
  | rlen
  | olen
  | reserved
  deriving DecidableEq, Repr

/-- R53: the host's five kinds of access. The types express exactly the accesses the spec defines (U6). -/
inductive HostAccess where
  | writeReg (r : Reg) (v : Word)
  | readReg (r : Reg)
  | writeBuf (i : Fin pbufSize) (b : Byte)
  | readBuf (i : Fin pbufSize)
  | readOut (i : Fin obufSize)
  deriving DecidableEq, Repr

/-- What reaches the block from outside: an access of the host (R53), or reset, which is no access and "can be applied
at any time" (R37). -/
inductive HostEvent where
  | access (a : HostAccess)
  | reset
  deriving DecidableEq, Repr

/-- What a read gives back to the host. -/
inductive Answer where
  /-- A register's value. -/
  | word (v : Word)
  /-- A buffer byte. -/
  | byte (b : Byte)
  /-- A byte of a cell that nothing has written since reset: 0 to 255, "not necessarily the same on two reads" (R235).
  No value stands for it. -/
  | unspecified
  deriving DecidableEq, Repr

/-- A buffer: the cells written since reset, addresses rising. A cell that is not listed has never been written and
holds no value the model may use (R36, R235). -/
abbrev Memory := List Host.Cell

/-- The canonical form: addresses strictly rising, so that equal contents are equal lists. -/
abbrev Memory.wf (m : Memory) : Prop := m.Pairwise (fun c d => c.1 < d.1)

/-- R200: the errors a command can report, each with what R201 records in ERRFIELD. They are reports in STATUS, not
stops of the machine. -/
inductive Error where
  /-- Code 1: a value does not fit its field, or a length exceeds 65535 (R202); the id of the field. -/
  | overflow (field : Byte)
  /-- Code 2: the IPv4 field widths do not add to 160 (R203). -/
  | headerLength
  /-- Code 3: `x[RSTAT][1:0]` is not 0 (R204); that value. -/
  | addressResolution (failed : Byte)
  /-- Code 4: the checksum input is not a whole number of 16-bit words (R205). -/
  | checksumLength
  /-- Code 5: no command, or an operand size the block does not implement (R206); which condition. -/
  | illegalCommand (cause : Byte)
  deriving DecidableEq, Repr

/-- What a command that succeeds leaves for the host. -/
inductive Result where
  /-- ENCODE and CSUM: the pair RES, RLEN (R100, R121). -/
  | number (res rlen : Nat)
  /-- TCPHDR, IPHDR and ASSEMBLE: the bytes of OBUF from index 0 (R140, R160, R180). -/
  | output (bytes : List Byte)
  deriving DecidableEq, Repr

/-- Why the machine stops. -/
inductive Fault where
  /-- Raised by CSUM, TCPHDR and ASSEMBLE when they read a PBUF byte that nothing has written since reset; `index` is
  the first such byte. Safe: R235 has the model "refuse, or fault, a command that reads an unwritten one, rather than
  pick a value", where the hardware goes on with an unspecified one. -/
  | unwrittenPayload (index : Nat)
  deriving DecidableEq, Repr

/-- Why an instruction has no meaning. -/
inductive Refusal where
  /-- Raised by the dispatcher for an instruction that has no meaning in the model; no instruction is one today. Safe:
  the machine stops where the hardware goes on. -/
  | notModelled (mnemonic : String)
  deriving DecidableEq, Repr

/-- R20: ten operand registers, five control and result registers, PBUF and OBUF. `cfg` is the instance's configuration,
which no step changes (R5); `pending` and `answer` belong to the host's side of the port (R6, R53). -/
structure State where
  /-- R5: fixed for an instance. -/
  cfg     : Config
  /-- Register 0 (R21, R22): the source address. -/
  srcaddr : Word
  /-- Register 1 (R21, R22): the destination address. -/
  dstaddr : Word
  /-- Register 2 (R21): the source port. -/
  sport   : Word
  /-- Register 3 (R21): the destination port. -/
  dport   : Word
  /-- Register 4 (R21): the sequence number. -/
  seq     : Word
  /-- Register 5 (R21): the acknowledgment number. -/
  ackn    : Word
  /-- Register 6 (R21): the payload length in bytes. -/
  plen    : Word
  /-- Register 7 (R21, R23): the address-resolution status. -/
  rstat   : Word
  /-- Register 8 (R21): the value operand of ENCODE. -/
  val     : Word
  /-- Register 9 (R21): the length in bits of the CSUM input. -/
  clen    : Word
  /-- Register 10 (R24, R25): the last command word written. -/
  cmd     : Word
  /-- Register 11 (R24, R26): the outcome of the last command. -/
  status  : Word
  /-- Register 12 (R24): the numeric result of ENCODE or CSUM, else 0. -/
  res     : Word
  /-- Register 13 (R24): the length in bits of the result in RES, else 0. -/
  rlen    : Word
  /-- Register 14 (R24): the number of valid bytes in OBUF, else 0. -/
  olen    : Word
  /-- R27: the payload buffer. -/
  pbuf    : Memory
  /-- R28: the output buffer. -/
  obuf    : Memory
  /-- The host's accesses that have not yet taken effect, the next one first (R55). -/
  pending : List HostEvent
  /-- What the host's last access gave back; none where it was a write. -/
  answer  : Option Answer
  deriving DecidableEq, Repr

/-- R36, R230: the state after reset of an instance configured `cfg`: every register 0, PBUF and OBUF unspecified (no
cell written), no access pending. -/
def State.resetWith (cfg : Config) : State where
  cfg     := cfg
  srcaddr := 0
  dstaddr := 0
  sport   := 0
  dport   := 0
  seq     := 0
  ackn    := 0
  plen    := 0
  rstat   := 0
  val     := 0
  clen    := 0
  cmd     := 0
  status  := 0
  res     := 0
  rlen    := 0
  olen    := 0
  pbuf    := []
  obuf    := []
  pending := []
  answer  := none

/-- The machine right after reset, configured with the values of R5. -/
def State.reset : State := State.resetWith Config.standard

/-- What one step of this machine answers. -/
abbrev Outcome := Host.Outcome State Fault Refusal

end Sys2Proof.Machine
end

