-- ==== Sys2Proof/Machine/Bits.lean ====
section
/-! DEFINITION. Bit strings, numbers and byte sequences (R7, R8, R9). -/

namespace Sys2Proof.Machine

/-- R7: a finite sequence of bits; the first is the most significant and the first on the wire. -/
abbrev BitString := List Bool

/-- R7: `zeros(n)`. -/
def zeros (n : Nat) : BitString := List.replicate n false

/-- R8: the number a bit string spells, most significant bit first. -/
def num (s : BitString) : Nat := s.foldl (fun acc b => 2 * acc + b.toNat) 0

/-- R8: `bitlen(0) = 1` and `bitlen(v) = floor(log2(v)) + 1` for `v > 0`. -/
def bitlen (v : Nat) : Nat := if v = 0 then 1 else v.log2 + 1

/-- The low `n` bits of `v`, most significant first. -/
def spell : Nat → Nat → BitString
  | 0, _ => []
  | n + 1, v => v.testBit n :: spell n v

/-- R8: the shortest bit string that spells `v`; `bin(0) = "0"`. -/
def bin (v : Nat) : BitString := spell (bitlen v) v

/-- The first `m` pieces of `k` bits each. -/
def pieces (k : Nat) : Nat → BitString → List BitString
  | 0, _ => []
  | m + 1, s => s.take k :: pieces k m (s.drop k)

/-- R9: `bytes_of(s)`: byte `k` is `num(s[8k..8k+7])`. -/
def bytesOf (s : BitString) : List Byte := (pieces 8 (s.length / 8) s).map (fun p => BitVec.ofNat 8 (num p))

/-- R9: `bits_of(b0, b1, ...)`: each byte's 8 bits in order. -/
def bitsOf (bs : List Byte) : BitString := bs.flatMap (fun b => spell 8 b.toNat)

/-- R120, R51: the 16-bit words of a bit string, first bit most significant. -/
def wordsOf (s : BitString) : List Nat := (pieces 16 (s.length / 16) s).map num

/-- R22, R79: the register value of the address `a.b.c.d`. -/
def dottedQuad (a b c d : Byte) : Word := a ++ b ++ c ++ d

end Sys2Proof.Machine
end

