-- ==== Sys2Proof/Machine/Flags.lean ====
section
/-! DEFINITION. STATUS (R26): its fields, and the two values a command leaves in it. DONE and ERR are the only flags
(R30). -/

namespace Sys2Proof.Machine

/-- The ERRCODE column of R200. -/
def Error.code : Error → Nat
  | .overflow _ => 1
  | .headerLength => 2
  | .addressResolution _ => 3
  | .checksumLength => 4
  | .illegalCommand _ => 5

/-- The ERRFIELD column of R201. -/
def Error.field : Error → Byte
  | .overflow f => f
  | .headerLength => 0
  | .addressResolution f => f
  | .checksumLength => 0
  | .illegalCommand f => f

/-- STATUS after a command that succeeds: DONE alone. -/
def statusDone : Word := 1

/-- R211: `2 + 16*code(E) + 256*f`, ERR with its ERRCODE and ERRFIELD. -/
def statusError (e : Error) : Word := BitVec.ofNat 32 (2 + 16 * e.code + 256 * e.field.toNat)

/-- STATUS bit 0. -/
def State.done (s : State) : Bool := s.status.getLsbD 0

/-- STATUS bit 1. -/
def State.err (s : State) : Bool := s.status.getLsbD 1

/-- STATUS bits 7:4. -/
def State.errcode (s : State) : Nat := (s.status.extractLsb' 4 4).toNat

/-- STATUS bits 15:8. -/
def State.errfield (s : State) : Byte := s.status.extractLsb' 8 8

end Sys2Proof.Machine
end

