-- ==== Sys2Proof/Machine/Ops.lean ====
section
/-! DEFINITION. The named operations over buffers and registers, and the two ways a command ends: an error report
(`State.raise`, the block's one exception entry, R211) and a result (`State.settle`). There is no return from an error:
the next invalidation clears the report (R212). -/

namespace Sys2Proof.Machine

/-! ### Buffers (R50) -/

/-- The byte at `a`; none where nothing has written it since reset. -/
def Memory.read (m : Memory) (a : Nat) : Option Byte := m.lookup a

/-- R10 `MemRead(m + base, n)`: the `n` bytes from `base`, or the index of the first that is unwritten. The cells are in
rising order (`Memory.wf`), so one walk along them finds the bytes. -/
def Memory.readBlock : Memory → Nat → Nat → Except Nat (List Byte)
  | [], _, 0 => .ok []
  | [], base, _ + 1 => .error base
  | _ :: _, _, 0 => .ok []
  | c :: m, base, n + 1 =>
    if c.1 < base then Memory.readBlock m base (n + 1)
    else if c.1 = base then
      match Memory.readBlock m (base + 1) n with
      | .error i => .error i
      | .ok bs => .ok (c.2 :: bs)
    else .error base

/-- The cells `base`, `base + 1`, ... holding `bs` in order. -/
def Memory.cells : Nat → List Byte → Memory
  | _, [] => []
  | base, b :: bs => (base, b) :: Memory.cells (base + 1) bs

/-- R10 `MemWrite(m + base, n, bs)`: the cells from `base` take `bs`; every other cell stays. -/
def Memory.writeBlock (m : Memory) (base : Nat) (bs : List Byte) : Memory :=
  m.filter (fun c => c.1 < base) ++ Memory.cells base bs ++ m.filter (fun c => base + bs.length ≤ c.1)

/-- One byte: `m[a] <- b`. -/
def Memory.write (m : Memory) (a : Nat) (b : Byte) : Memory := Memory.writeBlock m a [b]

/-! ### Registers (R21, R24) -/

/-- The number of a register. -/
def Reg.number : Reg → Nat
  | .srcaddr => 0
  | .dstaddr => 1
  | .sport => 2
  | .dport => 3
  | .seq => 4
  | .ackn => 5
  | .plen => 6
  | .rstat => 7
  | .val => 8
  | .clen => 9
  | .cmd => 10
  | .status => 11
  | .res => 12
  | .rlen => 13
  | .olen => 14
  | .reserved => 15

/-- The register of a number; above 15 there is none (U6). -/
def Reg.ofNumber : Nat → Option Reg
  | 0 => some .srcaddr
  | 1 => some .dstaddr
  | 2 => some .sport
  | 3 => some .dport
  | 4 => some .seq
  | 5 => some .ackn
  | 6 => some .plen
  | 7 => some .rstat
  | 8 => some .val
  | 9 => some .clen
  | 10 => some .cmd
  | 11 => some .status
  | 12 => some .res
  | 13 => some .rlen
  | 14 => some .olen
  | 15 => some .reserved
  | _ => none

/-- R21: the operand registers are numbers 0 to 9. -/
def Reg.isOperand (r : Reg) : Bool := r.number < 10

/-- `x[r]`; register 15 reads 0 (R24). -/
def State.readReg (s : State) : Reg → Word
  | .srcaddr => s.srcaddr
  | .dstaddr => s.dstaddr
  | .sport => s.sport
  | .dport => s.dport
  | .seq => s.seq
  | .ackn => s.ackn
  | .plen => s.plen
  | .rstat => s.rstat
  | .val => s.val
  | .clen => s.clen
  | .cmd => s.cmd
  | .status => s.status
  | .res => s.res
  | .rlen => s.rlen
  | .olen => s.olen
  | .reserved => 0

/-- R31: what every write to an input does, and every CMD write before its command runs. -/
def State.invalidate (s : State) : State := { s with status := 0, res := 0, rlen := 0, olen := 0 }

/-- R53: a host write to a register other than CMD. An operand register takes the value and the result is invalidated
(R31); a read-only or reserved register is unchanged and nothing is invalidated (R24, D25). CMD's case is the command
itself and is not this operation's. -/
def State.writeReg (s : State) (r : Reg) (v : Word) : State :=
  match r with
  | .srcaddr => { s with srcaddr := v }.invalidate
  | .dstaddr => { s with dstaddr := v }.invalidate
  | .sport => { s with sport := v }.invalidate
  | .dport => { s with dport := v }.invalidate
  | .seq => { s with seq := v }.invalidate
  | .ackn => { s with ackn := v }.invalidate
  | .plen => { s with plen := v }.invalidate
  | .rstat => { s with rstat := v }.invalidate
  | .val => { s with val := v }.invalidate
  | .clen => { s with clen := v }.invalidate
  | .cmd => s
  | .status => s
  | .res => s
  | .rlen => s
  | .olen => s
  | .reserved => s

/-- R53: a host write to one PBUF byte, then invalidate. -/
def State.writeBuf (s : State) (i : Nat) (b : Byte) : State := { s with pbuf := Memory.write s.pbuf i b }.invalidate

/-- A cell as the host sees it (R235 for one that nothing has written). -/
def Memory.answer (m : Memory) (i : Nat) : Answer :=
  match Memory.read m i with
  | some b => .byte b
  | none => .unspecified

/-- R28: the gate. "a host read of output byte `i` returns `OBUF[i]` when `STATUS.DONE = 1` and `i < x[OLEN]`, and
returns 0 otherwise." -/
def State.readOut (s : State) (i : Nat) : Answer :=
  if s.done && decide (i < s.olen.toNat) then Memory.answer s.obuf i else .byte 0

/-- R25: what a CMD write does before the command's rule runs. -/
def State.beginCommand (s : State) (c : Word) : State := { s with cmd := c }.invalidate

/-- R37: reset at any time. Only the configuration and what the host has yet to do survive it. -/
def State.applyReset (s : State) : State := { State.resetWith s.cfg with pending := s.pending }

/-! ### The two ends of a command -/

/-- R211, error entry: `raise E(f)`. STATUS reports the error, RES, RLEN and OLEN are 0, and nothing else changes. -/
def State.raise (s : State) (e : Error) : State := { s with status := statusError e, res := 0, rlen := 0, olen := 0 }

/-- ENCODE and CSUM end: `x[RES]`, `x[RLEN]`, `x[OLEN] <- 0`, DONE (R100, R121). -/
def State.finishNumber (s : State) (res rlen : Nat) : State :=
  { s with res := BitVec.ofNat 32 res, rlen := BitVec.ofNat 32 rlen, olen := 0, status := statusDone }

/-- TCPHDR, IPHDR and ASSEMBLE end: OBUF from index 0, `x[OLEN]`, `x[RES] <- 0`, `x[RLEN] <- 0`, DONE (R140, R160,
R180). -/
def State.finishOutput (s : State) (bs : List Byte) : State :=
  { s with
    obuf := Memory.writeBlock s.obuf 0 bs, olen := BitVec.ofNat 32 bs.length, res := 0, rlen := 0,
    status := statusDone }

/-- A command ends with exactly one of a result and an error (R30, R210). -/
def State.settle (s : State) : Except Error Result → State
  | .error e => s.raise e
  | .ok (.number res rlen) => s.finishNumber res rlen
  | .ok (.output bs) => s.finishOutput bs

end Sys2Proof.Machine
end

