-- ==== Sys2Proof/Machine/Operands.lean ====
section
/-! DEFINITION. The operands a command takes from the state: the resolution mark, the payload, and the input bytes of a
command that reads PBUF. -/

namespace Sys2Proof.Machine

/-- R204, R145: `if x[RSTAT][1:0] != 0: raise AddressResolutionError(x[RSTAT][1:0])`. Bits 31:2 are not looked at
(R23). -/
def State.resolved (s : State) : Except Error Unit :=
  if s.rstat.extractLsb' 0 2 = 0 then .ok () else .error (.addressResolution ((s.rstat.extractLsb' 0 2).zeroExtend 8))

/-- R27: the payload, `PBUF[0 .. x[PLEN]-1]`. -/
def State.payload (s : State) : Except Nat (List Byte) := Memory.readBlock s.pbuf 0 s.plen.toNat

/-- R121: the CSUM input, `PBUF[0 .. x[CLEN]/8 - 1]`. -/
def State.csumInput (s : State) : Except Nat (List Byte) := Memory.readBlock s.pbuf 0 (s.clen.toNat / 8)

/-- How a command that reads PBUF ends. `checks` are the errors it meets before it reads a byte, `build` is the whole
command over the bytes read. If every byte has been written, the command ends as `build` says. If one has not, then
either a check has ended the command before the read, or the read itself faults (R235). The bytes are looked up first so
that the outcome does not hang on a value of the configuration where no byte is missing. -/
def State.withInput {α : Type} (s : State) (input : Except Nat (List Byte)) (checks : Except Error α)
    (build : List Byte → Except Error Result) : Outcome :=
  match input with
  | .ok bs => .next (s.settle (build bs))
  | .error i =>
    match checks with
    | .error e => .next (s.raise e)
    | .ok _ => .fault (.unwrittenPayload i)

end Sys2Proof.Machine
end

