-- ==== Sys2Proof/Machine/BitField.lean ====
section
/-! DEFINITION. The bit-field packer: the function `enc` (R101), header fields through it (R107), and the command ENCODE
(R100). -/

namespace Sys2Proof.Machine

/-- R101: `enc(v, w, pr)`; none is OverflowError (R102). Width 0 is the natural length (R103). -/
def enc (v w : Nat) (pr : Bool) : Option BitString :=
  if w = 0 then some (bin v)
  else if w < (bin v).length then none
  else if pr then some (bin v ++ zeros (w - (bin v).length))
  else some (zeros (w - (bin v).length) ++ bin v)

/-- R34: a header field is a (value, bit-width) pair; here with the ERRFIELD id its overflow reports (R201). -/
structure HeaderField where
  id    : Byte
  value : Nat
  width : Nat
  deriving DecidableEq, Repr

/-- R107: "Header fields are always padded on the left". -/
def HeaderField.bits (f : HeaderField) : Except Error BitString :=
  match enc f.value f.width false with
  | some s => .ok s
  | none => .error (.overflow f.id)

/-- The concatenation of fields, encoded "in the order written and the first that overflows ends the command" (R141,
R161). -/
def encFields : List HeaderField → Except Error BitString
  | [] => .ok []
  | f :: fs =>
    match f.bits with
    | .error e => .error e
    | .ok s =>
      match encFields fs with
      | .error e => .error e
      | .ok t => .ok (s ++ t)

/-- R100's pseudocode. A width above `WMAX` spells no command (R73 condition 4); it is reported here too, so that the
meaning of no term truncates. -/
def encodeResult (padRight : Bool) (width : Nat) (s : State) : Except Error Result :=
  if wmax < width then .error (.illegalCommand 4)
  else
    match enc s.val.toNat width padRight with
    | some b => .ok (.number (num b) b.length)
    | none => .error (.overflow 0x30)

/-- R100, ENCODE. -/
def execEncode (padRight : Bool) (width : Nat) (s : State) : Outcome := .next (s.settle (encodeResult padRight width s))

end Sys2Proof.Machine
end

