-- ==== Sys2Proof/Machine/Checksum.lean ====
section
/-! DEFINITION. The one's-complement checksum engine: the function `cks` (R120) and the command CSUM (R121). -/

namespace Sys2Proof.Machine

/-- R120: the end-around carry loop, `while sum > 0xFFFF`. The first argument bounds the passes; each pass lowers the
sum, so a bound of the sum itself is never reached. -/
def fold : Nat → Nat → Nat
  | 0, sum => sum
  | fuel + 1, sum => if 0xFFFF < sum then fold fuel (sum % 0x10000 + sum / 0x10000) else sum

/-- R120: the unfolded sum of the 16-bit words, a natural number that does not wrap (R125). -/
def wordSum (ws : List Nat) : Nat := ws.foldl (· + ·) 0

/-- R120: the complement of the folded sum. -/
def checksumOf (ws : List Nat) : Nat := 0xFFFF - fold (wordSum ws) (wordSum ws)

/-- R120 and R122: `cks(s)`; it never pads, and a length that is not a multiple of 16 is ChecksumLengthError. -/
def cks (s : BitString) : Except Error Nat :=
  if s.length % 16 = 0 then .ok (checksumOf (wordsOf s)) else .error .checksumLength

/-- R121: what CSUM checks before it reads a byte, in order. -/
def csumChecks (s : State) : Except Error Unit :=
  if 8 * pbufSize < s.clen.toNat then .error (.illegalCommand 5)
  else if s.clen.toNat % 16 ≠ 0 then .error .checksumLength
  else .ok ()

/-- R121's pseudocode over the input bytes. -/
def csumResult (s : State) (bs : List Byte) : Except Error Result :=
  match csumChecks s with
  | .error e => .error e
  | .ok _ =>
    match cks (bitsOf bs) with
    | .error e => .error e
    | .ok c => .ok (.number c 16)

/-- R121, CSUM. -/
def execCsum (s : State) : Outcome := s.withInput s.csumInput (csumChecks s) (csumResult s)

end Sys2Proof.Machine
end

