-- ==== Sys2Proof/Machine/IpHeader.lean ====
section
/-! DEFINITION. The IPv4 header builder `ip_build` (R164) and the command IPHDR (R160). -/

namespace Sys2Proof.Machine

/-- R161 with the layout of R74: the thirteen fields of the IPv4 header with total length `total` and checksum value
`c`. -/
def ipFields (s : State) (total c : Nat) : List HeaderField :=
  [⟨0x00, 4, s.cfg.ipw.version⟩, ⟨0x01, 5, s.cfg.ipw.headerLength⟩, ⟨0x02, 0, s.cfg.ipw.dscp⟩, ⟨0x03, 0, s.cfg.ipw.ecn⟩,
   ⟨0x04, total, s.cfg.ipw.totalLength⟩, ⟨0x05, s.cfg.ipId, s.cfg.ipw.identification⟩, ⟨0x06, 2, s.cfg.ipw.flags⟩,
   ⟨0x07, 0, s.cfg.ipw.fragmentOffset⟩, ⟨0x08, s.cfg.ttl, s.cfg.ipw.ttl⟩, ⟨0x09, 6, s.cfg.ipw.protocol⟩,
   ⟨0x0A, c, s.cfg.ipw.checksum⟩, ⟨0x0B, s.srcaddr.toNat, s.cfg.ipw.source⟩,
   ⟨0x0C, s.dstaddr.toNat, s.cfg.ipw.destination⟩]

/-- R161: `ip_image(total, c)`. -/
def ipImage (s : State) (total c : Nat) : Except Error BitString := encFields (ipFields s total c)

/-- R162: `40 + x[PLEN]`, a natural number with no wrap. -/
def totalLength (s : State) : Nat := 40 + s.plen.toNat

/-- R164: `ip_build()`. The length check is R163's: "if the image is not exactly 160 bits long, that is if
`IPW[0] + ... + IPW[12] != 160`"; both conditions are tried, since a width of 0 (natural length, R103) makes them
differ. DEDUCED (log entry 5). -/
def ipBuild (s : State) : Except Error BitString :=
  if 65535 < totalLength s then .error (.overflow 0x04)
  else
    match ipImage s (totalLength s) 0 with
    | .error e => .error e
    | .ok h0 =>
      if h0.length = 160 ∧ s.cfg.ipw.sum = 160 then
        match cks h0 with
        | .error e => .error e
        | .ok c => ipImage s (totalLength s) c
      else .error .headerLength

/-- R160's pseudocode. -/
def iphdrResult (s : State) : Except Error Result :=
  match s.resolved with
  | .error e => .error e
  | .ok _ =>
    match ipBuild s with
    | .error e => .error e
    | .ok h => .ok (.output (bytesOf h))

/-- R160, IPHDR. It does not read PBUF (R166). -/
def execIphdr (s : State) : Outcome := .next (s.settle (iphdrResult s))

end Sys2Proof.Machine
end

