-- ==== Sys2Proof/Machine/TcpHeader.lean ====
section
/-! DEFINITION. The TCP header builder `tcp_build` (R143) and the command TCPHDR (R140). -/

namespace Sys2Proof.Machine

/-- R142 with the bit values of R76: ACK always, SYN for FIRST, FIN for LAST. -/
def tcpFlags : Place → Nat
  | .first => 0x012
  | .mid => 0x010
  | .last => 0x011

/-- R141 with the layout of R75: the ten fields of the TCP header with checksum value `c`. -/
def tcpFields (s : State) (fl c : Nat) : List HeaderField :=
  [⟨0x10, s.sport.toNat, 16⟩, ⟨0x11, s.dport.toNat, 16⟩, ⟨0x12, s.seq.toNat, 32⟩, ⟨0x13, s.ackn.toNat, 32⟩,
   ⟨0x14, 5, 4⟩, ⟨0x15, 0, 3⟩, ⟨0x16, fl, 9⟩, ⟨0x17, s.cfg.window, 16⟩, ⟨0x18, c, 16⟩, ⟨0x19, 0, 16⟩]

/-- R141: `tcp_image(fl, c)`. -/
def tcpImage (s : State) (fl c : Nat) : Except Error BitString := encFields (tcpFields s fl c)

/-- R77: the pseudo-header; `20 + x[PLEN]` does not wrap (R143). -/
def pseudoFields (s : State) : List HeaderField :=
  [⟨0x20, s.srcaddr.toNat, 32⟩, ⟨0x21, s.dstaddr.toNat, 32⟩, ⟨0x22, 0, 8⟩, ⟨0x23, 6, 8⟩, ⟨0x24, 20 + s.plen.toNat, 16⟩]

/-- R143 up to the payload: the header with checksum 0 first, then the pseudo-header, then their concatenation in the
checksum's order (R81). -/
def tcpPrepare (place : Place) (s : State) : Except Error BitString :=
  match tcpImage s (tcpFlags place) 0 with
  | .error e => .error e
  | .ok t0 =>
    match encFields (pseudoFields s) with
    | .error e => .error e
    | .ok ps => .ok (ps ++ t0)

/-- R144: one byte of 0 for the checksum only, when `x[PLEN]` is odd. -/
def tcpPad (s : State) : BitString := if s.plen.toNat % 2 = 1 then zeros 8 else []

/-- R143: `tcp_build(place)` over the payload. -/
def tcpBuild (place : Place) (s : State) (pay : List Byte) : Except Error BitString :=
  match tcpPrepare place s with
  | .error e => .error e
  | .ok front =>
    match cks (front ++ bitsOf pay ++ tcpPad s) with
    | .error e => .error e
    | .ok c => tcpImage s (tcpFlags place) c

/-- R140: the errors TCPHDR meets before it reads the payload, in the order of R210. -/
def tcphdrChecks (place : Place) (s : State) : Except Error BitString :=
  match s.resolved with
  | .error e => .error e
  | .ok _ => tcpPrepare place s

/-- R140's pseudocode over the payload. -/
def tcphdrResult (place : Place) (s : State) (pay : List Byte) : Except Error Result :=
  match s.resolved with
  | .error e => .error e
  | .ok _ =>
    match tcpBuild place s pay with
    | .error e => .error e
    | .ok t => .ok (.output (bytesOf t))

/-- R140, TCPHDR. -/
def execTcphdr (place : Place) (s : State) : Outcome :=
  s.withInput s.payload (tcphdrChecks place s) (tcphdrResult place s)

end Sys2Proof.Machine
end

