-- ==== Sys2Proof/Machine/Assemble.lean ====
section
/-! DEFINITION. The packet assembler: the command ASSEMBLE (R180). -/

namespace Sys2Proof.Machine

/-- R180, R181: the errors ASSEMBLE meets before it reads the payload: resolution once (R182), then the IPv4 builder,
then the TCP builder. -/
def assembleChecks (place : Place) (s : State) : Except Error BitString :=
  match s.resolved with
  | .error e => .error e
  | .ok _ =>
    match ipBuild s with
    | .error e => .error e
    | .ok _ => tcpPrepare place s

/-- R180's pseudocode over the payload: IPv4 header, TCP header and payload bytes, in that order (R78). -/
def assembleResult (place : Place) (s : State) (pay : List Byte) : Except Error Result :=
  match s.resolved with
  | .error e => .error e
  | .ok _ =>
    match ipBuild s with
    | .error e => .error e
    | .ok h =>
      match tcpBuild place s pay with
      | .error e => .error e
      | .ok t => .ok (.output (bytesOf h ++ bytesOf t ++ pay))

/-- R180, ASSEMBLE. -/
def execAssemble (place : Place) (s : State) : Outcome :=
  s.withInput s.payload (assembleChecks place s) (assembleResult place s)

end Sys2Proof.Machine
end

