-- ==== Sys2Proof/Machine/Dispatch.lean ====
section
/-! DEFINITION. One arm per command of R72. -/

namespace Sys2Proof.Machine

def exec (i : Instr) (s : State) : Host.Outcome State Fault Refusal :=
  match i with
  | .encode padRight width => Sys2Proof.Machine.execEncode padRight width s
  | .csum => Sys2Proof.Machine.execCsum s
  | .tcphdr place => Sys2Proof.Machine.execTcphdr place s
  | .iphdr => Sys2Proof.Machine.execIphdr s
  | .assemble place => Sys2Proof.Machine.execAssemble place s

end Sys2Proof.Machine
end

