-- ==== Sys2Proof/Machine/HostPort.lean ====
section
/-! DEFINITION. The host port: the effect of each access of R53, the command inside a CMD write (R25), and reset
(R37). -/

namespace Sys2Proof.Machine

/-- R25: a CMD write of `c` stores it, invalidates, decodes it and runs the command, all as one step (R234). An illegal
word ends with IllegalCommandError and does nothing else (R73, R206). -/
def runCommand (c : Word) (s : State) : Outcome :=
  match decode c with
  | .ok i => exec i (s.beginCommand c)
  | .error w => .next ((s.beginCommand c).raise (.illegalCommand w.errfield))

/-- R53: one access. A read gives its answer and has no other effect; a write gives no answer. -/
def perform (a : HostAccess) (s : State) : Outcome :=
  match a with
  | .writeReg .cmd c => runCommand c s
  | .writeReg r v => .next (s.writeReg r v)
  | .readReg r => .next { s with answer := some (.word (s.readReg r)) }
  | .writeBuf i b => .next (s.writeBuf i.val b)
  | .readBuf i => .next { s with answer := some (Memory.answer s.pbuf i.val) }
  | .readOut i => .next { s with answer := some (s.readOut i.val) }

/-- The host issues its next access: it leaves the queue, and what the access before it gave back is gone. -/
def State.issue (s : State) (rest : List HostEvent) : State := { s with pending := rest, answer := none }

/-- One event from outside: an access, or reset. -/
def takeEvent (e : HostEvent) (s : State) : Outcome :=
  match e with
  | .access a => perform a s
  | .reset => .next s.applyReset

/-- The host puts an event before all those it has pending. -/
def State.enqueueFirst (s : State) (e : HostEvent) : State := { s with pending := e :: s.pending }

end Sys2Proof.Machine
end

