-- ==== Sys2Proof/Machine/Step.lean ====
section
/-! DEFINITION. One step: the host's next access takes effect, completely (R55); with none pending the block stays idle
(R230). -/

namespace Sys2Proof.Machine

/-- R6, R55: the accesses take effect one at a time, in the order the host issues them. -/
def step (s : State) : Host.Outcome State Fault Refusal :=
  match s.pending with
  | [] => .next s
  | e :: rest => takeEvent e (s.issue rest)

/-- The state in which the host's next access is the CMD write of the given command word. The block fetches nothing
(R29, R57): "The command that runs is the value carried by the CMD write itself." -/
def State.withFetchWord (s : State) (nbits w : Nat) : State :=
  s.enqueueFirst (.access (.writeReg .cmd (commandWord nbits w)))

end Sys2Proof.Machine
end

