-- ==== Sys2Proof/Machine/HostProgram.lean ====
section
/-! DEFINITION. The host's side in the spec's own notation: the bus offsets (R52, R54), the assembler lines (R80), the
source's Packet (R38), and what the host does around a command (R217). Nothing here adds an effect: every line is a list
of the accesses of R53. -/

namespace Sys2Proof.Machine

/-! ### The platform's bus (R52, R54) -/

/-- R52: "register `n` is at byte offset `4n` from `BASE`". -/
def Reg.busAddress (cfg : Config) (r : Reg) : Nat := cfg.base + 4 * r.number

/-- The register that a 32-bit access at a bus address reaches: the one at that byte offset from `BASE`; any other
access is outside the spec (R52, U6). The spec does not say that `BASE` is a multiple of 4, and it is OPEN: alignment is
measured from `BASE`. DESIGN CHOICE (log entry 12). -/
def regAtBusAddress (cfg : Config) (addr : Nat) : Option Reg :=
  if addr < cfg.base ∨ (addr - cfg.base) % 4 ≠ 0 then none else Reg.ofNumber ((addr - cfg.base) / 4)

/-- The byte accesses that write `bs` from PBUF index `i`, in increasing index order: R54's adapter for a wide access,
and the `WB` lines of R80. None where an index does not exist (U6). -/
def bufWrites : Nat → List Byte → Option (List HostAccess)
  | _, [] => some []
  | i, b :: bs =>
    if h : i < pbufSize then (bufWrites (i + 1) bs).map (fun rest => .writeBuf ⟨i, h⟩ b :: rest) else none

/-- R54's adapter for a wide read of PBUF: `n` byte reads from index `i`. -/
def bufReads : Nat → Nat → Option (List HostAccess)
  | _, 0 => some []
  | i, n + 1 => if h : i < pbufSize then (bufReads (i + 1) n).map (fun rest => .readBuf ⟨i, h⟩ :: rest) else none

/-- Reads of OBUF in increasing index order: R54's adapter for a wide read, and R217's "collect". -/
def outReads : Nat → Nat → Option (List HostAccess)
  | _, 0 => some []
  | i, n + 1 => if h : i < obufSize then (outReads (i + 1) n).map (fun rest => .readOut ⟨i, h⟩ :: rest) else none

/-! ### Assembler lines (R80) -/

/-- One line of a host program. -/
inductive AsmLine where
  | wr (r : Reg) (v : Word)
  | wb (i : Fin pbufSize) (b : Byte)
  | rd (r : Reg)
  | rb (i : Fin pbufSize)
  | ro (i : Fin obufSize)
  | command (i : Instr)
  | payload (bs : List Byte)
  | csumin (bs : List Byte)
  deriving DecidableEq, Repr

/-- The accesses a line stands for. A command line is the CMD write of its word; PAYLOAD and CSUMIN are their `WB` lines
and then `WR PLEN, n` or `WR CLEN, 8*n`. -/
def AsmLine.accesses : AsmLine → Option (List HostAccess)
  | .wr r v => some [.writeReg r v]
  | .wb i b => some [.writeBuf i b]
  | .rd r => some [.readReg r]
  | .rb i => some [.readBuf i]
  | .ro i => some [.readOut i]
  | .command i => if WellFormed i then some [.writeReg .cmd (encode i)] else none
  | .payload bs => (bufWrites 0 bs).map (fun ws => ws ++ [.writeReg .plen (BitVec.ofNat 32 bs.length)])
  | .csumin bs => (bufWrites 0 bs).map (fun ws => ws ++ [.writeReg .clen (BitVec.ofNat 32 (8 * bs.length))])

/-- The bytes of a text: the characters' byte codes; none for a character that has no byte code. -/
def textBytes (t : String) : Option (List Byte) :=
  if t.toList.all (fun c => c.toNat < 256) then some (t.toList.map (fun c => BitVec.ofNat 8 c.toNat)) else none

/-- A program: its lines' accesses, in order. -/
def programAccesses : List AsmLine → Option (List HostAccess)
  | [] => some []
  | l :: ls => l.accesses.bind (fun a => (programAccesses ls).map (fun rest => a ++ rest))

/-- The host sets out to issue these accesses, and nothing after them. -/
def State.withAccesses (s : State) (as : List HostAccess) : State := { s with pending := as.map .access }

/-! ### The source's Packet, and the host around a command (R38, R217) -/

/-- R12, R38: "payload, sequence number, acknowledgment number, source and destination addresses, source and destination
ports, placement", the addresses already resolved (R22). -/
structure Packet where
  payload : List Byte
  seq     : Word
  ackn    : Word
  source  : Word
  dest    : Word
  sport   : Word
  dport   : Word
  place   : Place
  deriving DecidableEq, Repr

/-- R38, read from the right: the Packet the registers and PBUF hold, for a command that names `place`; the index of the
first payload byte that is unwritten where there is one. -/
def State.packet (s : State) (place : Place) : Except Nat Packet :=
  match s.payload with
  | .error i => .error i
  | .ok bs => .ok ⟨bs, s.seq, s.ackn, s.srcaddr, s.dstaddr, s.sport, s.dport, place⟩

/-- R217 "resolve": the octets of each host that resolved, then RSTAT with the bit of each that did not (R23). -/
def resolveLines (source dest : Option Word) : List AsmLine :=
  (match source with
    | some a => [.wr .srcaddr a]
    | none => []) ++
  (match dest with
    | some a => [.wr .dstaddr a]
    | none => []) ++
  [.wr .rstat (BitVec.ofNat 32 (source.isNone.toNat + 2 * dest.isNone.toNat))]

/-- R217 "load": ports, sequence numbers, and the payload with its length. -/
def Packet.loadLines (p : Packet) : List AsmLine :=
  [.wr .sport p.sport, .wr .dport p.dport, .wr .seq p.seq, .wr .ackn p.ackn, .payload p.payload]

/-- R217 "resolve", "load" and "build" of a whole packet. -/
def Packet.buildLines (p : Packet) : List AsmLine :=
  resolveLines (some p.source) (some p.dest) ++ p.loadLines ++ [.command (.assemble p.place)]

/-- R185, R217 "collect": what the host reads from `OBUF[0 .. OLEN-1]`. -/
def State.collected (s : State) : List Answer := (List.range s.olen.toNat).map s.readOut

end Sys2Proof.Machine
end

