-- ==== Sys2Proof/Safety.lean ====
section
/-! DEFINITION. What counts as a safe run, and the terms the statements use: the state invariant, a held result that
belongs to the present inputs, and reference values written from the spec's numbers alone (no `enc`, no `cks`). -/

namespace Sys2Proof.Machine

/-! ### Invariants -/

/-- R202 and R201: the ERRFIELD values that can be reported with each error. -/
def Error.Legal : Error → Prop
  | .overflow f => f.toNat ≤ 0x0C ∨ f = 0x10 ∨ f = 0x11 ∨ f = 0x17 ∨ f = 0x24 ∨ f = 0x30
  | .headerLength => True
  | .addressResolution f => 1 ≤ f.toNat ∧ f.toNat ≤ 3
  | .checksumLength => True
  | .illegalCommand f => 1 ≤ f.toNat ∧ f.toNat ≤ 5

/-- What every step keeps. -/
structure State.Inv (s : State) : Prop where
  /-- PBUF is in canonical form. -/
  pbufWf : Memory.wf s.pbuf
  /-- OBUF is in canonical form. -/
  obufWf : Memory.wf s.obuf
  /-- R50: PBUF indices run from 0 to 65535. -/
  pbufIn : ∀ c ∈ s.pbuf, c.1 < pbufSize
  /-- R50: OBUF indices run from 0 to 65535. -/
  obufIn : ∀ c ∈ s.obuf, c.1 < obufSize
  /-- R26, R30: no result, DONE alone, or the report of one error of R200. -/
  outcome : s.status = 0 ∨ s.status = statusDone ∨ ∃ e : Error, e.Legal ∧ s.status = statusError e
  /-- R24, R211: without DONE the result registers are 0. -/
  quiet : s.status ≠ statusDone → s.res = 0 ∧ s.rlen = 0 ∧ s.olen = 0
  /-- R100: RES is a number of RLEN bits, at most 32. -/
  number : s.rlen.toNat ≤ 32 ∧ s.res.toNat < 2 ^ s.rlen.toNat
  /-- R24: a result is a number or output bytes, never both. -/
  oneResult : s.olen = 0 ∨ s.res = 0 ∧ s.rlen = 0
  /-- R28: ASSEMBLE leaves at most 65535 bytes. -/
  outputFits : s.olen.toNat ≤ 65535
  /-- R28: every byte the gate lets through was written by a command. -/
  outputWritten : ∀ i < s.olen.toNat, Memory.read s.obuf i ≠ none

/-- R31, R212: no result and no error is held, or what is held is what the command in CMD makes of the present inputs:
running it again changes nothing. -/
def State.Fresh (s : State) : Prop := s.status = 0 ∨ runCommand s.cmd s = .next s

/-- A state that some host program leads to from reset, in some configuration. -/
def State.Reachable (s : State) : Prop :=
  ∃ (cfg : Config) (es : List HostEvent) (k : Nat),
    core.run k { State.resetWith cfg with pending := es } = .next s

/-! ### What a command reads -/

/-- The operands and the configuration a command reads ("Operands" and "Does not read" of R100, R121, R140, R160, R180):
two states in which the command must come out the same. -/
def SameOperands (i : Instr) (s t : State) : Prop :=
  match i with
  | .encode _ _ => s.val = t.val
  | .csum => s.clen = t.clen ∧ ∀ k < s.clen.toNat / 8, Memory.read s.pbuf k = Memory.read t.pbuf k
  | .tcphdr _ =>
    s.cfg.window = t.cfg.window ∧ s.srcaddr = t.srcaddr ∧ s.dstaddr = t.dstaddr ∧ s.rstat = t.rstat
      ∧ s.sport = t.sport ∧ s.dport = t.dport ∧ s.seq = t.seq ∧ s.ackn = t.ackn ∧ s.plen = t.plen
      ∧ ∀ k < s.plen.toNat, Memory.read s.pbuf k = Memory.read t.pbuf k
  | .iphdr =>
    s.cfg.ipId = t.cfg.ipId ∧ s.cfg.ttl = t.cfg.ttl ∧ s.cfg.ipw = t.cfg.ipw
      ∧ s.srcaddr = t.srcaddr ∧ s.dstaddr = t.dstaddr ∧ s.rstat = t.rstat ∧ s.plen = t.plen
  | .assemble _ =>
    s.cfg.ipId = t.cfg.ipId ∧ s.cfg.ttl = t.cfg.ttl ∧ s.cfg.ipw = t.cfg.ipw ∧ s.cfg.window = t.cfg.window
      ∧ s.srcaddr = t.srcaddr ∧ s.dstaddr = t.dstaddr ∧ s.rstat = t.rstat
      ∧ s.sport = t.sport ∧ s.dport = t.dport ∧ s.seq = t.seq ∧ s.ackn = t.ackn ∧ s.plen = t.plen
      ∧ ∀ k < s.plen.toNat, Memory.read s.pbuf k = Memory.read t.pbuf k

/-- `x[RSTAT][1:0]` (R23). -/
def State.failMark (s : State) : Nat := s.rstat.toNat % 4

/-- What a command leaves when it reports an error: the report alone (R211). -/
def State.reporting (s : State) (status : Word) : State := { s with status := status, res := 0, rlen := 0, olen := 0 }

/-- What a command leaves that puts `bs` into OBUF: the bytes from index 0, their count, and DONE. -/
def State.holding (s : State) (bs : List Byte) (count : Nat) : State :=
  { s with
    obuf := Memory.writeBlock s.obuf 0 bs, olen := BitVec.ofNat 32 count, res := 0, rlen := 0, status := 1 }

/-- The first `n` bytes of PBUF have been written, and are `b 0, b 1, ...`. -/
abbrev State.PayloadIs (s : State) (n : Nat) (b : Nat → Byte) : Prop := ∀ k < n, Memory.read s.pbuf k = some (b k)

/-! ### Reference values -/

/-- `a[31:16]` (R167). -/
def hi16 (a : Word) : Nat := a.toNat / 65536

/-- `a[15:0]` (R167). -/
def lo16 (a : Word) : Nat := a.toNat % 65536

/-- R123: the folded sum is 0 exactly when the sum is, and otherwise is the number in `1 .. 0xFFFF` congruent to it
modulo 0xFFFF. -/
def foldedSum (sum : Nat) : Nat := if sum = 0 then 0 else (sum - 1) % 65535 + 1

/-- The complement of the folded sum in 16 bits (R120). -/
def refChecksum (sum : Nat) : Nat := 65535 - foldedSum sum

/-- The two bytes of a 16-bit number, high byte first (R51). -/
def bytes16 (v : Nat) : List Byte := [BitVec.ofNat 8 (v / 256), BitVec.ofNat 8 v]

/-- The four bytes of a register, highest byte first (R51). -/
def bytes32 (a : Word) : List Byte := bytes16 (hi16 a) ++ bytes16 (lo16 a)

/-- R51: the sum of the 16-bit words of `n` bytes `b 0, b 1, ...`, word `j` being `b(2j) * 256 + b(2j+1)`, with a byte
of 0 after the last when `n` is odd (R144). -/
def wordSumOf (b : Nat → Byte) (n : Nat) : Nat :=
  ((List.range ((n + 1) / 2)).map
    (fun j => (b (2 * j)).toNat * 256 + if 2 * j + 1 < n then (b (2 * j + 1)).toNat else 0)).sum

/-- R142: byte 13 of the TCP header. -/
def flagByte : Place → Nat
  | .first => 0x12
  | .mid => 0x10
  | .last => 0x11

/-- R81: the unfolded sum over pseudo-header, TCP header with checksum 0, payload `b` and pad. -/
def tcpSum (s : State) (place : Place) (b : Nat → Byte) : Nat :=
  hi16 s.srcaddr + lo16 s.srcaddr + hi16 s.dstaddr + lo16 s.dstaddr + 6 + (20 + s.plen.toNat)
    + s.sport.toNat + s.dport.toNat + hi16 s.seq + lo16 s.seq + hi16 s.ackn + lo16 s.ackn
    + (0x5000 + flagByte place) + s.cfg.window + wordSumOf b s.plen.toNat

/-- R75 byte by byte: the 20 bytes of the TCP header. -/
def tcpBytes (s : State) (place : Place) (b : Nat → Byte) : List Byte :=
  bytes16 s.sport.toNat ++ bytes16 s.dport.toNat ++ bytes32 s.seq ++ bytes32 s.ackn
    ++ [0x50, BitVec.ofNat 8 (flagByte place)] ++ bytes16 s.cfg.window
    ++ bytes16 (refChecksum (tcpSum s place b)) ++ [0x00, 0x00]

/-- R167: the unfolded sum of the IPv4 header with checksum 0, for the default widths and TTL. -/
def ipSum (s : State) : Nat :=
  0x4500 + (40 + s.plen.toNat) + s.cfg.ipId + 0x4000 + 0xFF06
    + hi16 s.srcaddr + lo16 s.srcaddr + hi16 s.dstaddr + lo16 s.dstaddr

/-- R74 byte by byte: the 20 bytes of the IPv4 header, for the default widths and TTL. -/
def ipBytes (s : State) : List Byte :=
  [0x45, 0x00] ++ bytes16 (40 + s.plen.toNat) ++ bytes16 s.cfg.ipId ++ [0x40, 0x00, 0xFF, 0x06]
    ++ bytes16 (refChecksum (ipSum s)) ++ bytes32 s.srcaddr ++ bytes32 s.dstaddr

/-- R161 and R74: the 13 (value, width) pairs of the IPv4 header, for any configuration. -/
def ipPairs (s : State) (c : Nat) : List (Nat × Nat) :=
  [(4, s.cfg.ipw.version), (5, s.cfg.ipw.headerLength), (0, s.cfg.ipw.dscp), (0, s.cfg.ipw.ecn),
   (40 + s.plen.toNat, s.cfg.ipw.totalLength), (s.cfg.ipId, s.cfg.ipw.identification), (2, s.cfg.ipw.flags),
   (0, s.cfg.ipw.fragmentOffset), (s.cfg.ttl, s.cfg.ipw.ttl), (6, s.cfg.ipw.protocol), (c, s.cfg.ipw.checksum),
   (s.srcaddr.toNat, s.cfg.ipw.source), (s.dstaddr.toNat, s.cfg.ipw.destination)]

/-- R102: a pair does not overflow when its value is below 2^width; a width of 0 is the natural length (R103). -/
abbrev fits (p : Nat × Nat) : Prop := p.2 = 0 ∨ p.1 < 2 ^ p.2

/-- The number that the fields spell one after the other, the first most significant. -/
def spelled (ps : List (Nat × Nat)) : Nat := ps.foldl (fun acc p => acc * 2 ^ p.2 + p.1) 0

/-- The `n` big-endian bytes of a number. -/
def bigEndian (n v : Nat) : List Byte := (List.range n).map (fun k => BitVec.ofNat 8 (v / 2 ^ (8 * (n - 1 - k))))

/-- The sum of the ten 16-bit words of a 160-bit number. -/
def tenWordSum (v : Nat) : Nat := ((List.range 10).map (fun j => v / 2 ^ (16 * j) % 65536)).sum

end Sys2Proof.Machine
end

