-- ==== Sys2Proof/Certificates/Slice0/Obligations.lean ====
section
/-! DEFINITION. The statements for the provers. Reference values (`tcpBytes`, `ipBytes`, `refChecksum`, `ipPairs`, ...)
stand in Safety.lean and use neither `enc` nor `cks`. -/

open Sys2Proof Sys2Proof.Machine

/-! ### Command words -/

/-- R70, R71, R72: decoding the word of a well-formed instruction gives it back. -/
def Obligations.DecodingAnEncodedInstrGivesItBack : Prop :=
  ∀ i : Instr, WellFormed i = true → decode (encode i) = .ok i

/-- R72, R73: each word has one meaning: a word that decodes is the word of the instruction it decodes to. -/
def Obligations.DecodedWordIsTheInstrsOwnWord : Prop :=
  ∀ (c : Word) (i : Instr), decode c = .ok i → WellFormed i = true ∧ encode i = c

/-- R72: the five rows; they are disjoint; and a word decodes to an instruction of a row exactly when it matches the row
and R72's further condition on a field's value holds. -/
def Obligations.CommandMapRowsAreDisjointAndDecode : Prop :=
  commandMap =
    [⟨"ENCODE", 0x00000001#32, 0xFFFFC0BF#32⟩, ⟨"CSUM", 0x00000002#32, 0xFFFFFFFF#32⟩,
     ⟨"TCPHDR", 0x00000003#32, 0xFFFFFFCF#32⟩, ⟨"IPHDR", 0x00000004#32, 0xFFFFFFFF#32⟩,
     ⟨"ASSEMBLE", 0x00000005#32, 0xFFFFFFCF#32⟩] ∧
  (∀ r₁ ∈ commandMap, ∀ r₂ ∈ commandMap, ∀ c : Word, r₁.spells c = true → r₂.spells c = true → r₁ = r₂) ∧
  (∀ (c : Word) (i : Instr), decode c = .ok i → (rowOf i).spells c = true ∧
    (∀ pr w, i = .encode pr w → c.toNat / 256 % 64 ≤ 32) ∧
    (∀ p, i = .tcphdr p ∨ i = .assemble p → c.toNat / 16 % 4 ≤ 2)) ∧
  (∀ c : Word, encodeRow.spells c = true → c.toNat / 256 % 64 ≤ 32 →
    decode c = .ok (.encode (c.toNat / 64 % 2 == 1) (c.toNat / 256 % 64))) ∧
  (∀ c : Word, csumRow.spells c = true → decode c = .ok .csum) ∧
  (∀ c : Word, iphdrRow.spells c = true → decode c = .ok .iphdr) ∧
  (∀ (c : Word) (p : Place), tcphdrRow.spells c = true → c.toNat / 16 % 4 = fieldOfPlace p → decode c = .ok (.tcphdr p)) ∧
  (∀ (c : Word) (p : Place), assembleRow.spells c = true → c.toNat / 16 % 4 = fieldOfPlace p →
    decode c = .ok (.assemble p))

/-- R73: the four conditions, in their order, with bits 7 and 31:14 and the unused fields written out, what a CMD write
of such a word leaves, and the fifth refusal, by the value of CLEN. -/
def Obligations.IllegalWordsAreReportedInOrder : Prop :=
  ∀ (c : Word) (s : State),
    let op := c.toNat % 16
    let place := c.toNat / 16 % 4
    let padr := c.toNat / 64 % 2
    let bit7 := c.toNat / 128 % 2
    let width := c.toNat / 256 % 64
    let high := c.toNat / 16384
    let stray := bit7 ≠ 0 ∨ high ≠ 0 ∨ (op = 1 ∧ place ≠ 0) ∨ ((op = 2 ∨ op = 4) ∧ (place ≠ 0 ∨ padr ≠ 0 ∨ width ≠ 0))
      ∨ ((op = 3 ∨ op = 5) ∧ (padr ≠ 0 ∨ width ≠ 0))
    let report (f : Nat) : State := { s with cmd := c }.reporting (BitVec.ofNat 32 (2 + 16 * 5 + 256 * f))
    (op = 0 ∨ 6 ≤ op → runCommand c s = .next (report 1)) ∧
    (1 ≤ op → op ≤ 5 → stray → runCommand c s = .next (report 2)) ∧
    (op = 3 ∨ op = 5 → ¬ stray → place = 3 → runCommand c s = .next (report 3)) ∧
    (op = 1 → ¬ stray → 32 < width → runCommand c s = .next (report 4)) ∧
    (op = 2 → ¬ stray → 524288 < s.clen.toNat → runCommand c s = .next (report 5)) ∧
    (1 ≤ op → op ≤ 5 → ¬ stray → ¬ (op ≠ 2 ∧ op ≠ 4 ∧ op ≠ 1 ∧ place = 3) → ¬ (op = 1 ∧ 32 < width) →
      ∃ i, decode c = .ok i)

/-- Words written out bit by bit from R70 to R72 and the rules' own examples. A check of the decoder on given words. -/
def Obligations.CommandWordsOfTheSpecDecode : Prop :=
  decode 0b00000000000000000000010000000001#32 = .ok (.encode false 4) ∧
  decode 0b00000000000000000000010001000001#32 = .ok (.encode true 4) ∧
  decode 0b00000000000000000000000000000010#32 = .ok .csum ∧
  decode 0b00000000000000000000000000000011#32 = .ok (.tcphdr .first) ∧
  decode 0b00000000000000000000000000010011#32 = .ok (.tcphdr .mid) ∧
  decode 0b00000000000000000000000000100011#32 = .ok (.tcphdr .last) ∧
  decode 0b00000000000000000000000000000100#32 = .ok .iphdr ∧
  decode 0b00000000000000000000000000000101#32 = .ok (.assemble .first) ∧
  decode 0b00000000000000000000000000100101#32 = .ok (.assemble .last)

/-! ### The bit-field packer -/

/-- R106: the round trip of the default padding; what right padding reads back as, and when that is the value. -/
def Obligations.EncRoundTripsThroughNum : Prop :=
  (∀ v w : Nat, bitlen v ≤ w → ∃ b, enc v w false = some b ∧ b.length = w ∧ num b = v) ∧
  (∀ (v w : Nat) (b : BitString), bitlen v ≤ w → enc v w true = some b →
    num b = v * 2 ^ (w - bitlen v) ∧ (num b = v ↔ bitlen v = w ∨ v = 0))

/-- R102: `enc` fails exactly when the value is too long for a width that is not 0, equivalently when `v >= 2^w`, and
zero overflows no width of 1 or more. -/
def Obligations.EncOverflowsExactlyWhenTooLong : Prop :=
  (∀ (v w : Nat) (pr : Bool), enc v w pr = none ↔ w ≠ 0 ∧ w < bitlen v) ∧
  (∀ (v w : Nat) (pr : Bool), 1 ≤ w → (enc v w pr = none ↔ 2 ^ w ≤ v)) ∧
  (∀ (w : Nat) (pr : Bool), enc 0 w pr ≠ none)

/-- R103: width 0 is the natural length: `bitlen(v)` bits, never empty, the shortest that spell `v`. -/
def Obligations.EncWidthZeroIsNaturalLength : Prop :=
  (∀ (v : Nat) (pr : Bool), ∃ b, enc v 0 pr = some b ∧ b.length = bitlen v ∧ b ≠ [] ∧ num b = v ∧
    ∀ b' : BitString, b' ≠ [] → num b' = v → b.length ≤ b'.length) ∧
  (∀ pr : Bool, enc 0 0 pr = some [false] ∧ enc 6 0 pr = some [true, true, false])

/-- R104: the value of the result for either padding. -/
def Obligations.EncValueOfEachPadding : Prop :=
  ∀ v w : Nat, 1 ≤ w → bitlen v ≤ w →
    ∃ l r, enc v w false = some l ∧ enc v w true = some r ∧ l.length = w ∧ r.length = w ∧
      num l = v ∧ num r = v * 2 ^ (w - bitlen v) ∧
      (v ≠ 0 → r.head? = some true) ∧
      (v = 0 → l = List.replicate w false ∧ r = List.replicate w false) ∧
      (bitlen v = w → l = bin v ∧ r = bin v)

/-- R100: ENCODE's result, its word, its overflow, and its refused widths, for every value, width and padding; and the
bit string is recovered from RES and RLEN. -/
def Obligations.EncodeResultAndErrors : Prop :=
  ∀ (pr : Bool) (w : Nat) (s : State),
    let v := s.val.toNat
    let n := bitlen v
    (w ≤ 32 → (w = 0 ∨ n ≤ w) →
      exec (.encode pr w) s = .next
        { s with
          res := BitVec.ofNat 32 (if pr ∧ w ≠ 0 then v * 2 ^ (w - n) else v)
          rlen := BitVec.ofNat 32 (if w = 0 then n else w)
          olen := 0
          status := 1 }) ∧
    (∀ b, w ≤ 32 → enc v w pr = some b → exec (.encode pr w) s = .next (s.finishNumber (num b) b.length) ∧
      enc (num b) b.length false = some b) ∧
    (w ≤ 32 → decode (BitVec.ofNat 32 (1 + 64 * pr.toNat + 256 * w)) = .ok (.encode pr w)) ∧
    (w ≤ 32 → w ≠ 0 → w < n → exec (.encode pr w) s = .next (s.reporting 0x3012)) ∧
    (32 < w → w < 64 →
      runCommand (BitVec.ofNat 32 (1 + 64 * pr.toNat + 256 * w)) s =
        .next ({ s with cmd := BitVec.ofNat 32 (1 + 64 * pr.toNat + 256 * w) }.reporting 0x0452))

/-! ### The checksum engine -/

/-- R123: the fold. At most two passes below 2^32, a second pass does happen, the result by congruence modulo 0xFFFF,
and the per-word end-around carry in any order reaches the same sum. -/
def Obligations.FoldIsCongruenceAndEndAroundCarry : Prop :=
  (∀ sum : Nat, sum < 2 ^ 32 → fold 2 sum = fold sum sum ∧ fold sum sum ≤ 0xFFFF ∧
    (0x10000 ≤ sum → fold 1 sum ≤ 0x1FFFE ∧ (sum ≤ 0x1FFFE → fold 1 sum ≤ 0xFFFF))) ∧
  (fold 1 0x1FFFF = 0x10000 ∧ fold 2 0x1FFFF = 0x0001) ∧
  (∀ ws : List Nat, (∀ w ∈ ws, w ≤ 0xFFFF) →
    let sum := fold (wordSum ws) (wordSum ws)
    (sum = 0 ↔ ∀ w ∈ ws, w = 0) ∧
    ((∃ w ∈ ws, w ≠ 0) → 1 ≤ sum ∧ sum ≤ 0xFFFF ∧ sum % 0xFFFF = wordSum ws % 0xFFFF) ∧
    ∀ ws' : List Nat, ws.Perm ws' →
      ws'.foldl (fun acc w => (acc + w) % 0x10000 + (acc + w) / 0x10000) 0 = sum)

/-- R124: the checksum left in place of the zero it was computed over makes the engine answer 0, for every input. -/
def Obligations.ChecksumInPlaceAnswersZero : Prop :=
  ∀ pre post : BitString, pre.length % 16 = 0 → post.length % 16 = 0 →
    ∃ c b, cks (pre ++ zeros 16 ++ post) = .ok c ∧ enc c 16 false = some b ∧ cks (pre ++ b ++ post) = .ok 0

/-- R120, R122: `cks` over whole bytes is the complement of the folded sum of the big-endian words; over a length that
is no multiple of 16 it is ChecksumLengthError, never padded. -/
def Obligations.ChecksumOfBytesIsTheComplementedSum : Prop :=
  (∀ (b : Nat → Byte) (n : Nat), n % 2 = 0 →
    cks (bitsOf ((List.range n).map b)) = .ok (refChecksum (wordSumOf b n))) ∧
  (∀ t : BitString, t.length % 16 ≠ 0 → cks t = .error .checksumLength) ∧ cks [] = .ok 0xFFFF

/-- R125: the TCP checksum input is a whole number of words, at most 32774, so its sum stays below 2^32; 31 bits are not
enough for that many words. -/
def Obligations.UnfoldedSumsFit32Bits : Prop :=
  (∀ (place : Place) (s : State) (front : BitString) (pay : List Byte),
    tcpPrepare place s = .ok front → pay.length = s.plen.toNat →
    let input := front ++ bitsOf pay ++ tcpPad s
    input.length = 256 + 8 * (s.plen.toNat + s.plen.toNat % 2) ∧ input.length % 16 = 0 ∧
      (wordsOf input).length ≤ 32774 ∧ wordSum (wordsOf input) < 2 ^ 32) ∧
  (∀ m : Nat, wordSum (List.replicate m 0xFFFF) = m * 0xFFFF) ∧ 2 ^ 31 < 32774 * 0xFFFF ∧ 32774 * 0xFFFF < 2 ^ 32

/-- R121: CSUM's word, its result and its two errors, in their order; an error reads no byte. -/
def Obligations.CsumResultAndErrors : Prop :=
  decode 0x00000002#32 = .ok .csum ∧ ∀ s : State,
    (∀ b : Nat → Byte, Memory.wf s.pbuf → s.clen.toNat ≤ 524288 → s.clen.toNat % 16 = 0 →
      s.PayloadIs (s.clen.toNat / 8) b →
      exec .csum s = .next
        { s with
          res := BitVec.ofNat 32 (refChecksum (wordSumOf b (s.clen.toNat / 8)))
          rlen := 16
          olen := 0
          status := 1 }) ∧
    (524288 < s.clen.toNat → exec .csum s = .next (s.reporting 0x0552)) ∧
    (s.clen.toNat ≤ 524288 → s.clen.toNat % 16 ≠ 0 → exec .csum s = .next (s.reporting 0x0042))

/-! ### The TCP header builder -/

/-- R140 to R144: TCPHDR leaves the 20 header bytes for every placement, payload and window that fit. -/
def Obligations.TcphdrLeavesTheHeaderBytes : Prop :=
  ∀ (place : Place) (s : State) (b : Nat → Byte),
    Memory.wf s.pbuf → s.PayloadIs s.plen.toNat b → s.failMark = 0 →
    s.sport.toNat ≤ 65535 → s.dport.toNat ≤ 65535 → s.cfg.window ≤ 65535 → s.plen.toNat ≤ 65515 →
    exec (.tcphdr place) s = .next (s.holding (tcpBytes s place b) 20)

/-- R140, R210: TCPHDR's errors, in the order they are checked; each reads no payload byte. -/
def Obligations.TcphdrErrorsInOrder : Prop :=
  ∀ (place : Place) (s : State),
    (s.failMark ≠ 0 → exec (.tcphdr place) s = .next (s.reporting (BitVec.ofNat 32 (2 + 16 * 3 + 256 * s.failMark)))) ∧
    (s.failMark = 0 → 65535 < s.sport.toNat → exec (.tcphdr place) s = .next (s.reporting 0x1012)) ∧
    (s.failMark = 0 → s.sport.toNat ≤ 65535 → 65535 < s.dport.toNat →
      exec (.tcphdr place) s = .next (s.reporting 0x1112)) ∧
    (s.failMark = 0 → s.sport.toNat ≤ 65535 → s.dport.toNat ≤ 65535 → 65535 < s.cfg.window →
      exec (.tcphdr place) s = .next (s.reporting 0x1712)) ∧
    (s.failMark = 0 → s.sport.toNat ≤ 65535 → s.dport.toNat ≤ 65535 → s.cfg.window ≤ 65535 → 65515 < s.plen.toNat →
      exec (.tcphdr place) s = .next (s.reporting 0x2412))

/-- R142: FIRST sets SYN, LAST sets FIN, ACK is always set, every other flag bit is 0: bytes 12 and 13 of the TCP header
that TCPHDR leaves at index 0 and ASSEMBLE at index 20, whenever they succeed. -/
def Obligations.PlacementSetsTheFlags : Prop :=
  ∀ (place : Place) (s s' : State) (start : Nat), s'.done = true →
    (exec (.tcphdr place) s = .next s' ∧ start = 0) ∨ (exec (.assemble place) s = .next s' ∧ start = 20) →
    Memory.read s'.obuf (start + 12) = some 0x50 ∧
    ∃ f : Byte, Memory.read s'.obuf (start + 13) = some f ∧ f.getLsbD 4 = true ∧
      f.getLsbD 1 = decide (place = .first) ∧ f.getLsbD 0 = decide (place = .last) ∧ f &&& 0xEC#8 = 0

/-! ### The IPv4 header builder -/

/-- R160, R161, R164, R167: IPHDR leaves the 20 header bytes, for the default widths, window and TTL and any `IP_ID`
that fits. -/
def Obligations.IphdrLeavesTheHeaderBytes : Prop :=
  ∀ s : State, s.cfg.ipw = IpWidths.standard → s.cfg.ttl = 255 → s.cfg.ipId ≤ 65535 →
    s.failMark = 0 → s.plen.toNat ≤ 65495 →
    exec .iphdr s = .next (s.holding (ipBytes s) 20)

/-- R161 to R164, for any configuration: if every field fits a width of 1 or more, the widths add to 160 and the
checksum fits, IPHDR leaves the 160 bits that the fields spell. -/
def Obligations.IphdrOfAnyConfiguration : Prop :=
  ∀ s : State, s.failMark = 0 → s.plen.toNat ≤ 65495 →
    (∀ p ∈ ipPairs s 0, 1 ≤ p.2 ∧ fits p) → s.cfg.ipw.sum = 160 →
    let c := refChecksum (tenWordSum (spelled (ipPairs s 0)))
    c < 2 ^ s.cfg.ipw.checksum →
    exec .iphdr s = .next (s.holding (bigEndian 20 (spelled (ipPairs s c))) 20)

/-- R160, R162, R163, R210 steps 3 to 7: IPHDR's errors in the order they are checked, for any configuration. The clause
of a width of 0 whose widths still add to 160 is the model's reading (log entry 5). -/
def Obligations.IphdrErrorsInOrder : Prop :=
  ∀ s : State,
    (s.failMark ≠ 0 → exec .iphdr s = .next (s.reporting (BitVec.ofNat 32 (2 + 16 * 3 + 256 * s.failMark)))) ∧
    (s.failMark = 0 → 65495 < s.plen.toNat → exec .iphdr s = .next (s.reporting 0x0412)) ∧
    (s.failMark = 0 → s.plen.toNat ≤ 65495 →
      ∀ (k : Nat) (p : Nat × Nat), (ipPairs s 0)[k]? = some p → ¬ fits p →
        (∀ j < k, ∀ q, (ipPairs s 0)[j]? = some q → fits q) →
        exec .iphdr s = .next (s.reporting (BitVec.ofNat 32 (2 + 16 * 1 + 256 * k)))) ∧
    (s.failMark = 0 → s.plen.toNat ≤ 65495 → (∀ p ∈ ipPairs s 0, fits p) →
      (s.cfg.ipw.sum ≠ 160 ∨ ∃ p ∈ ipPairs s 0, p.2 = 0) → exec .iphdr s = .next (s.reporting 0x0022)) ∧
    (s.failMark = 0 → s.plen.toNat ≤ 65495 → (∀ p ∈ ipPairs s 0, 1 ≤ p.2 ∧ fits p) → s.cfg.ipw.sum = 160 →
      2 ^ s.cfg.ipw.checksum ≤ refChecksum (tenWordSum (spelled (ipPairs s 0))) →
      exec .iphdr s = .next (s.reporting 0x0A12))

/-- R165: the bytes 10 and 11 that IPHDR leaves are the checksum of the header with those bytes 0, and are never
0xFFFF (default widths). -/
def Obligations.StoredIpChecksumIsReproduced : Prop :=
  ∀ s s' : State, s.cfg.ipw = IpWidths.standard → exec .iphdr s = .next s' → s'.done = true →
    ∃ h : Nat → Byte, (∀ k < 20, Memory.read s'.obuf k = some (h k)) ∧
      (h 10).toNat * 256 + (h 11).toNat =
        refChecksum (wordSumOf (fun k => if k = 10 ∨ k = 11 then 0 else h k) 20) ∧
      (h 10).toNat * 256 + (h 11).toNat ≠ 0xFFFF

/-- R167: with the default widths and TTL, bytes 10 and 11 are `0xFFFF -` the fold of the sum written out there, high
byte first. -/
def Obligations.IpChecksumIsTheComplementOfTheSum : Prop :=
  ∀ s s' : State, s.cfg.ipw = IpWidths.standard → s.cfg.ttl = 255 → exec .iphdr s = .next s' → s'.done = true →
    let sum := 0x4500 + (40 + s.plen.toNat) + s.cfg.ipId + 0x4000 + 0xFF06
      + s.srcaddr.toNat / 65536 + s.srcaddr.toNat % 65536 + s.dstaddr.toNat / 65536 + s.dstaddr.toNat % 65536
    Memory.read s'.obuf 10 = some (BitVec.ofNat 8 ((0xFFFF - fold sum sum) / 256)) ∧
    Memory.read s'.obuf 11 = some (BitVec.ofNat 8 (0xFFFF - fold sum sum))

/-- R162: the total length is `40 + PLEN` with no wrap; above 65535 the command ends with OverflowError and ERRFIELD 0x04,
before any field is encoded, whatever the configuration; otherwise it stands in bytes 2 and 3 (default widths). -/
def Obligations.TotalLengthIsCheckedWithoutWrapping : Prop :=
  ∀ (place : Place) (s : State), s.failMark = 0 →
    (65535 < 40 + s.plen.toNat →
      exec .iphdr s = .next (s.reporting 0x0412) ∧ exec (.assemble place) s = .next (s.reporting 0x0412)) ∧
    (∀ s', s.cfg.ipw = IpWidths.standard → exec .iphdr s = .next s' → s'.done = true →
      ∃ hi lo : Byte, Memory.read s'.obuf 2 = some hi ∧ Memory.read s'.obuf 3 = some lo ∧
        hi.toNat * 256 + lo.toNat = 40 + s.plen.toNat)

/-- R79, R22: the address `a.b.c.d` is the register value with `a` most significant, and stands in the header as the
bytes `a, b, c, d` (default widths). -/
def Obligations.AddressesStandInOctetOrder : Prop :=
  ∀ (a b c d : Byte) (s s' : State), s.cfg.ipw = IpWidths.standard → exec .iphdr s = .next s' → s'.done = true →
    (dottedQuad a b c d).toNat = a.toNat * 2 ^ 24 + b.toNat * 2 ^ 16 + c.toNat * 2 ^ 8 + d.toNat ∧
    (s.srcaddr = dottedQuad a b c d →
      Memory.read s'.obuf 12 = some a ∧ Memory.read s'.obuf 13 = some b ∧
      Memory.read s'.obuf 14 = some c ∧ Memory.read s'.obuf 15 = some d) ∧
    (s.dstaddr = dottedQuad a b c d →
      Memory.read s'.obuf 16 = some a ∧ Memory.read s'.obuf 17 = some b ∧
      Memory.read s'.obuf 18 = some c ∧ Memory.read s'.obuf 19 = some d)

/-! ### The packet assembler -/

/-- R180, R181, R183: ASSEMBLE leaves IPv4 header, TCP header and payload, `40 + PLEN` bytes, for the default
configuration. -/
def Obligations.AssembleLeavesThePacket : Prop :=
  ∀ (place : Place) (s : State) (b : Nat → Byte), s.cfg.IsDefault →
    Memory.wf s.pbuf → s.PayloadIs s.plen.toNat b → s.failMark = 0 →
    s.sport.toNat ≤ 65535 → s.dport.toNat ≤ 65535 → s.plen.toNat ≤ 65495 →
    exec (.assemble place) s = .next
      (s.holding (ipBytes s ++ tcpBytes s place b ++ (List.range s.plen.toNat).map b) (40 + s.plen.toNat))

/-- R180, R181 for any configuration: what ASSEMBLE leaves is IPHDR's 20 bytes, then TCPHDR's 20 bytes, then the
payload. -/
def Obligations.AssembleIsTheTwoBuildersAndThePayload : Prop :=
  ∀ (place : Place) (s s₁ s₂ : State) (b : Nat → Byte), Memory.wf s.pbuf → s.PayloadIs s.plen.toNat b →
    exec .iphdr s = .next s₁ → s₁.done = true → exec (.tcphdr place) s = .next s₂ → s₂.done = true →
    ∃ s₃, exec (.assemble place) s = .next s₃ ∧ s₃.status = 1 ∧ s₃.res = 0 ∧ s₃.rlen = 0 ∧
      s₃.olen = BitVec.ofNat 32 (40 + s.plen.toNat) ∧
      (∀ k < 20, Memory.read s₃.obuf k = Memory.read s₁.obuf k) ∧
      (∀ k < 20, Memory.read s₃.obuf (20 + k) = Memory.read s₂.obuf k) ∧
      (∀ k < s.plen.toNat, Memory.read s₃.obuf (40 + k) = some (b k))

/-- R180, R210: ASSEMBLE reports what IPHDR reports, and where IPHDR succeeds, what TCPHDR reports. -/
def Obligations.AssembleReportsTheBuildersErrors : Prop :=
  ∀ (place : Place) (s s₁ s₂ : State),
    (exec .iphdr s = .next s₁ → s₁.err = true → exec (.assemble place) s = .next s₁) ∧
    (exec .iphdr s = .next s₁ → s₁.done = true → exec (.tcphdr place) s = .next s₂ → s₂.err = true →
      exec (.assemble place) s = .next s₂)

/-- R124, R146, R165 over the bytes the host collects: after ASSEMBLE succeeds, the IPv4 header sums to 0xFFFF, and so
does the TCP segment with its pseudo-header in front (default configuration). -/
def Obligations.AssembledChecksumsVerify : Prop :=
  ∀ (place : Place) (s s' : State), s.cfg.IsDefault → Memory.wf s.pbuf →
    exec (.assemble place) s = .next s' → s'.done = true →
    ∃ o : Nat → Byte, (∀ k < s'.olen.toNat, Memory.read s'.obuf k = some (o k)) ∧
      refChecksum (wordSumOf o 20) = 0 ∧
      refChecksum (hi16 s.srcaddr + lo16 s.srcaddr + hi16 s.dstaddr + lo16 s.dstaddr + 6 + (s'.olen.toNat - 20)
        + wordSumOf (fun k => o (20 + k)) (s'.olen.toNat - 20)) = 0

/-- R183: after ASSEMBLE succeeds, `OBUF[40 + i] = PBUF[i]` for every payload index, and the packet ends with the
payload, in any configuration. -/
def Obligations.PayloadIsCopiedUnchanged : Prop :=
  ∀ (place : Place) (s s' : State), Memory.wf s.pbuf → exec (.assemble place) s = .next s' → s'.done = true →
    s'.olen.toNat = 40 + s.plen.toNat ∧
    ∀ k < s.plen.toNat, ∃ b, Memory.read s.pbuf k = some b ∧ Memory.read s'.obuf (40 + k) = some b

/-- R184: if ASSEMBLE ends with an error, OLEN is 0 and every host read of OBUF returns 0. -/
def Obligations.NothingPartialIsVisible : Prop :=
  ∀ (place : Place) (s s' : State), exec (.assemble place) s = .next s' → s'.err = true →
    s'.olen = 0 ∧ ∀ k, s'.readOut k = .byte 0

/-- R148: SYN and FIN are never both set, in the header of TCPHDR (byte 13) or in the packet of ASSEMBLE (byte 33). -/
def Obligations.SynAndFinAreNeverBothSet : Prop :=
  ∀ (place : Place) (s s' : State) (f : Byte), s'.done = true →
    (exec (.tcphdr place) s = .next s' ∧ Memory.read s'.obuf 13 = some f) ∨
      (exec (.assemble place) s = .next s' ∧ Memory.read s'.obuf 33 = some f) →
    ¬ (f.getLsbD 1 = true ∧ f.getLsbD 0 = true)

/-- R235: a command that reads a PBUF byte which nothing has written stops, and names the first such byte. The stop is
the model's answer to an unspecified byte (log entry 1). -/
def Obligations.ReadingAnUnwrittenPayloadByteStops : Prop :=
  ∀ (s : State) (i : Nat), Memory.wf s.pbuf → Memory.read s.pbuf i = none → (∀ j < i, Memory.read s.pbuf j ≠ none) →
    (s.clen.toNat ≤ 524288 → s.clen.toNat % 16 = 0 → i < s.clen.toNat / 8 →
      exec .csum s = .fault (.unwrittenPayload i)) ∧
    (∀ place : Place, s.failMark = 0 → s.sport.toNat ≤ 65535 → s.dport.toNat ≤ 65535 → s.cfg.window ≤ 65535 →
      s.plen.toNat ≤ 65515 → i < s.plen.toNat →
      exec (.tcphdr place) s = .fault (.unwrittenPayload i) ∧
      ∀ s₁, exec .iphdr s = .next s₁ → s₁.done = true → exec (.assemble place) s = .fault (.unwrittenPayload i))

/-! ### What a command changes, and what it reads -/

/-- R20, R21, R27, R50: what a command leaves unchanged: every operand register, CMD, the configuration, PBUF and the
host's side of the port; and every byte of OBUF except those the command stores, from index 0. -/
def Obligations.CommandFrame : Prop :=
  ∀ (i : Instr) (s s' : State), exec i s = .next s' →
    s' = { s with status := s'.status, res := s'.res, rlen := s'.rlen, olen := s'.olen, obuf := s'.obuf } ∧
    (match i with
      | .encode _ _ => s'.obuf = s.obuf
      | .csum => s'.obuf = s.obuf
      | .tcphdr _ => ∀ a, 20 ≤ a → Memory.read s'.obuf a = Memory.read s.obuf a
      | .iphdr => ∀ a, 20 ≤ a → Memory.read s'.obuf a = Memory.read s.obuf a
      | .assemble _ => ∀ a, 40 + s.plen.toNat ≤ a → Memory.read s'.obuf a = Memory.read s.obuf a) ∧
    (s'.err = true → s'.obuf = s.obuf)

/-- R211: a CMD write that ends in an error leaves the failing word in CMD, the report in STATUS, RES, RLEN and OLEN 0,
and changes nothing else; no byte of OBUF is visible. -/
def Obligations.ErrorLeavesOnlyItsReport : Prop :=
  ∀ (c : Word) (s s' : State), runCommand c s = .next s' → s'.err = true →
    s' = { s with cmd := c, status := s'.status, res := 0, rlen := 0, olen := 0 } ∧
    (∃ e : Error, s'.status = BitVec.ofNat 32 (2 + 16 * e.code + 256 * e.field.toNat)) ∧
    ∀ k, s'.readOut k = .byte 0

/-- R30: a command sets exactly one of DONE and ERR at its end, and its result does not depend on STATUS, RES, RLEN or
OLEN. -/
def Obligations.ExactlyOneOfDoneAndErr : Prop :=
  (∀ (c : Word) (s s' : State), runCommand c s = .next s' →
    s'.done = !s'.err ∧
    ∀ st r l o : Word, runCommand c { s with status := st, res := r, rlen := l, olen := o } = .next s') ∧
  (∀ (i : Instr) (s s' : State), exec i s = .next s' →
    s'.done = !s'.err ∧
    ∀ st r l o : Word, exec i { s with status := st, res := r, rlen := l, olen := o } = .next s')

/-- R200 to R206, the column "raised by": which command can report which error. -/
def Obligations.EachErrorHasItsCommands : Prop :=
  ∀ (i : Instr) (s s' : State), WellFormed i = true → exec i s = .next s' → s'.err = true →
    (s'.errcode = 1 → i ≠ .csum) ∧
    (s'.errcode = 2 → i = .iphdr ∨ ∃ p, i = .assemble p) ∧
    (s'.errcode = 3 → i = .iphdr ∨ (∃ p, i = .tcphdr p) ∨ ∃ p, i = .assemble p) ∧
    (s'.errcode = 4 → i = .csum) ∧
    (s'.errcode = 5 → i = .csum) ∧
    1 ≤ s'.errcode ∧ s'.errcode ≤ 5

/-- R204: AddressResolutionError: TCPHDR, IPHDR and ASSEMBLE report it before anything is built, whatever else would
fail; ENCODE and CSUM do not look at RSTAT. -/
def Obligations.ResolutionFailureComesFirst : Prop :=
  ∀ (place : Place) (s : State),
    (s.failMark ≠ 0 →
      let report := s.reporting (BitVec.ofNat 32 (2 + 16 * 3 + 256 * s.failMark))
      exec (.tcphdr place) s = .next report ∧ exec .iphdr s = .next report ∧ exec (.assemble place) s = .next report) ∧
    (∀ (i : Instr) (s' : State), exec i s = .next s' → s'.errcode = 3 →
      s.failMark ≠ 0 ∧ i ≠ .csum ∧ ∀ pr w, i ≠ .encode pr w) ∧
    (∀ (pr : Bool) (w : Nat) (v : Word) (s' : State),
      (exec (.encode pr w) s = .next s' → exec (.encode pr w) { s with rstat := v } = .next { s' with rstat := v }) ∧
      (exec .csum s = .next s' → exec .csum { s with rstat := v } = .next { s' with rstat := v }))

/-- R205: ChecksumLengthError is CSUM's report of an input that is not a whole number of 16-bit words (and within the
buffer), and of nothing else. -/
def Obligations.ChecksumLengthErrorIsCsumsAlone : Prop :=
  ∀ (i : Instr) (s s' : State), exec i s = .next s' →
    (s'.errcode = 4 ↔ i = .csum ∧ s.clen.toNat ≤ 524288 ∧ s.clen.toNat % 16 ≠ 0)

/-- R203: HeaderLengthError is reported by IPHDR and ASSEMBLE only, is unreachable with the default widths, and is
reported when the widths do not add to 160 (and no earlier check ends the command). -/
def Obligations.HeaderLengthErrorNeedsOtherWidths : Prop :=
  (∀ (i : Instr) (s s' : State), exec i s = .next s' → s'.errcode = 2 → i = .iphdr ∨ ∃ p, i = .assemble p) ∧
  (∀ (i : Instr) (s s' : State), s.cfg.ipw = IpWidths.standard → exec i s = .next s' → s'.errcode ≠ 2) ∧
  (∀ (place : Place) (s : State), s.failMark = 0 → s.plen.toNat ≤ 65495 → (∀ p ∈ ipPairs s 0, fits p) →
    s.cfg.ipw.sum ≠ 160 →
    exec .iphdr s = .next (s.reporting 0x0022) ∧ exec (.assemble place) s = .next (s.reporting 0x0022))

/-- R23: RSTAT bits 31:2 are looked at by no command; where a bit of `x[RSTAT][1:0]` is set, neither are the addresses:
the report is the same whatever they hold. -/
def Obligations.OnlyTheTwoMarksOfRstatMatter : Prop :=
  (∀ (i : Instr) (s s' : State) (v : Word), v.toNat % 4 = s.failMark → exec i s = .next s' →
    exec i { s with rstat := v } = .next { s' with rstat := v }) ∧
  (∀ (i : Instr) (s s' : State) (a a' : Word), s.failMark ≠ 0 → exec i s = .next s' →
    exec i { s with srcaddr := a, dstaddr := a' } = .next { s' with srcaddr := a, dstaddr := a' })

/-- R55, R105, R126, R166, R212: what the host gets from a command depends only on the operands and configuration that
command reads, whatever else the state holds. -/
def Obligations.ResultsDependOnOperandsAlone : Prop :=
  ∀ (i : Instr) (s t s' : State), Memory.wf s.pbuf → Memory.wf t.pbuf → SameOperands i s t → exec i s = .next s' →
    ∃ t', exec i t = .next t' ∧ t'.status = s'.status ∧ t'.res = s'.res ∧ t'.rlen = s'.rlen ∧ t'.olen = s'.olen ∧
      ∀ k < s'.olen.toNat, Memory.read t'.obuf k = Memory.read s'.obuf k

/-- R234, R235: every CMD write ends in a next state, except that a command which reads an unwritten PBUF byte stops
there; none is refused. -/
def Obligations.EveryCommandWriteEnds : Prop :=
  ∀ (c : Word) (s : State), Memory.wf s.pbuf →
    (∃ s', runCommand c s = .next s') ∨
    ∃ i, runCommand c s = .fault (.unwrittenPayload i) ∧ i < pbufSize ∧ Memory.read s.pbuf i = none

/-! ### The host port -/

/-- R25: a step whose access is a CMD write of a word that decodes to `i` is `exec i`, after the word is stored and the
held result is invalidated; a word that decodes to none is reported. -/
def Obligations.CmdWriteRunsTheDecodedCommand : Prop :=
  ∀ (s : State) (c : Word) (rest : List HostEvent), s.pending = .access (.writeReg .cmd c) :: rest →
    let s₀ : State :=
      { s with pending := rest, answer := none, cmd := c, status := 0, res := 0, rlen := 0, olen := 0 }
    (∀ i, decode c = .ok i → step s = exec i s₀) ∧
    (∀ w, decode c = .error w → step s = .next (s₀.reporting (BitVec.ofNat 32 (2 + 16 * 5 + 256 * w.errfield.toNat))))

/-- R53, R24, R28: the accesses other than a CMD write, each with its whole effect. The last clause for each buffer, a
read of a cell that nothing has written, answers no byte: the model's choice (log entry 3); no state that keeps the
invariant has such a cell of OBUF behind an open gate. -/
def Obligations.HostAccessesHaveTheirEffects : Prop :=
  ∀ (s : State) (rest : List HostEvent),
    let s₀ : State := { s with pending := rest, answer := none }
    (∀ (r : Reg) (v : Word), s.pending = .access (.writeReg r v) :: rest → r.number < 10 →
      ∃ t, step s = .next t ∧ t.readReg r = v ∧ (∀ q : Reg, q ≠ r → q.number ≤ 10 → t.readReg q = s.readReg q) ∧
        t.status = 0 ∧ t.res = 0 ∧ t.rlen = 0 ∧ t.olen = 0 ∧
        t.pbuf = s.pbuf ∧ t.obuf = s.obuf ∧ t.cfg = s.cfg ∧ t.pending = rest ∧ t.answer = none) ∧
    (∀ (r : Reg) (v : Word), s.pending = .access (.writeReg r v) :: rest → 11 ≤ r.number → step s = .next s₀) ∧
    (∀ r : Reg, s.pending = .access (.readReg r) :: rest →
      step s = .next { s₀ with answer := some (.word (if r = .reserved then 0 else s.readReg r)) }) ∧
    (∀ (i : Fin pbufSize) (b : Byte), s.pending = .access (.writeBuf i b) :: rest →
      ∃ t, step s = .next t ∧ Memory.read t.pbuf i.val = some b ∧
        (∀ a, a ≠ i.val → Memory.read t.pbuf a = Memory.read s.pbuf a) ∧
        t = { s₀ with pbuf := t.pbuf, status := 0, res := 0, rlen := 0, olen := 0 }) ∧
    (∀ (i : Fin pbufSize) (b : Byte), s.pending = .access (.readBuf i) :: rest → Memory.read s.pbuf i.val = some b →
      step s = .next { s₀ with answer := some (.byte b) }) ∧
    (∀ i : Fin pbufSize, s.pending = .access (.readBuf i) :: rest → Memory.read s.pbuf i.val = none →
      step s = .next { s₀ with answer := some .unspecified }) ∧
    (∀ i : Fin obufSize, s.pending = .access (.readOut i) :: rest →
      s.status.getLsbD 0 = false ∨ s.olen.toNat ≤ i.val →
      step s = .next { s₀ with answer := some (.byte 0) }) ∧
    (∀ (i : Fin obufSize) (b : Byte), s.pending = .access (.readOut i) :: rest →
      s.status.getLsbD 0 = true → i.val < s.olen.toNat → Memory.read s.obuf i.val = some b →
      step s = .next { s₀ with answer := some (.byte b) }) ∧
    (∀ i : Fin obufSize, s.pending = .access (.readOut i) :: rest →
      s.status.getLsbD 0 = true → i.val < s.olen.toNat → Memory.read s.obuf i.val = none →
      step s = .next { s₀ with answer := some .unspecified })

/-- R31: every write to an operand register, to a byte of PBUF or to CMD clears STATUS, RES, RLEN and OLEN, "whatever
the value and even if it equals the old value", in the step that stores the value; a CMD write does so before the
command runs, or before an illegal word is reported, and prepares nothing else. -/
def Obligations.InputWritesInvalidate : Prop :=
  ∀ (s : State) (rest : List HostEvent),
    let cleared (t : State) : Prop := t.status = 0 ∧ t.res = 0 ∧ t.rlen = 0 ∧ t.olen = 0
    (∀ (r : Reg) (v : Word), s.pending = .access (.writeReg r v) :: rest → r.number ≤ 9 →
      ∃ t, step s = .next t ∧ t.readReg r = v ∧ cleared t) ∧
    (∀ (i : Fin pbufSize) (b : Byte), s.pending = .access (.writeBuf i b) :: rest →
      ∃ t, step s = .next t ∧ Memory.read t.pbuf i.val = some b ∧ cleared t) ∧
    (∀ c : Word, s.pending = .access (.writeReg .cmd c) :: rest →
      let t : State :=
        { s with pending := rest, answer := none, cmd := c, status := 0, res := 0, rlen := 0, olen := 0 }
      (∀ i : Instr, decode c = .ok i → step s = exec i t) ∧
      (∀ w : IllegalWord, decode c = .error w →
        step s = .next { t with status := BitVec.ofNat 32 (2 + 16 * 5 + 256 * w.errfield.toNat) }))

/-- R28: the gate. A host read of OBUF answers a byte of the output only while DONE is 1 and the index is below OLEN,
and 0 otherwise; in a state that keeps the invariant it is never an unwritten byte. -/
def Obligations.OutputGateShowsOnlyTheResult : Prop :=
  ∀ (s : State) (k : Nat),
    (s.done = false ∨ s.olen.toNat ≤ k → s.readOut k = .byte 0) ∧
    (s.Inv → s.done = true → k < s.olen.toNat → ∃ b, Memory.read s.obuf k = some b ∧ s.readOut k = .byte b)

/-- R6, R55: a step takes the host's next access and no other; with none pending the block stays as it is (R230). -/
def Obligations.AccessesTakeEffectOneAtATime : Prop :=
  (∀ s : State, s.pending = [] → step s = .next s) ∧
  (∀ s s' : State, step s = .next s' → s'.pending = s.pending.tail)

/-- R5: "they do not change while it runs": no step changes the configuration. -/
def Obligations.ConfigurationNeverChanges : Prop :=
  ∀ s s' : State, step s = .next s' → s'.cfg = s.cfg

/-- R53, R24: a read, and a write to a read-only or reserved register, leave every register, PBUF, OBUF and the
configuration as they were: only the answer to the host differs. -/
def Obligations.ReadsHaveNoSideEffect : Prop :=
  ∀ (s : State) (a : HostAccess) (rest : List HostEvent), s.pending = .access a :: rest →
    (∀ r v, a = .writeReg r v → 11 ≤ r.number) → (∀ i b, a ≠ .writeBuf i b) →
    ∃ ans, step s = .next { s with pending := rest, answer := ans }

/-! ### Reset and invariants -/

/-- R36, R37: reset at any time leaves every register 0, no byte of PBUF or OBUF usable, the configuration unchanged, and
runs no command; every host read of OBUF then returns 0. -/
def Obligations.ResetLeavesTheResetState : Prop :=
  ∀ (s : State) (rest : List HostEvent), s.pending = .reset :: rest →
    ∃ t, step s = .next t ∧ (∀ r : Reg, t.readReg r = 0) ∧ t.cfg = s.cfg ∧ t.pending = rest ∧ t.answer = none ∧
      (∀ a, Memory.read t.pbuf a = none) ∧ ∀ k, t.readOut k = .byte 0

/-- R36: the values of `State.reset`. -/
def Obligations.MachineResetValues : Prop :=
  (∀ r : Reg, State.reset.readReg r = 0) ∧ State.reset.pbuf = [] ∧ State.reset.obuf = [] ∧ State.reset.pending = [] ∧
  State.reset.cfg.window = 65535 ∧ State.reset.cfg.ttl = 255 ∧ State.reset.cfg.ipw = IpWidths.standard ∧
  State.reset.cfg.ipId < 65536

/-- The invariant holds after reset, in every configuration and whatever the host is about to do. -/
def Obligations.InvariantHoldsAfterReset : Prop :=
  ∀ (cfg : Config) (es : List HostEvent), State.Inv { State.resetWith cfg with pending := es }

/-- Every step keeps the invariant: both buffers keep their canonical form and index range, STATUS is 0, DONE or the
report of one error of R200, result registers are 0 without DONE, and every byte behind the gate has been written. -/
def Obligations.StepKeepsTheInvariant : Prop :=
  ∀ s s' : State, s.Inv → step s = .next s' → s'.Inv

/-- A held result belongs to the present inputs after reset. -/
def Obligations.HeldResultIsFreshAfterReset : Prop :=
  ∀ (cfg : Config) (es : List HostEvent), State.Fresh { State.resetWith cfg with pending := es }

/-- R31, R212, R232: no stale result: whatever the host does, either no result is held, or running the command in CMD
again on the present inputs changes nothing (a held result is that command's on those inputs). -/
def Obligations.HeldResultAlwaysBelongsToTheInputs : Prop :=
  ∀ s s' : State, s.Fresh → step s = .next s' → s'.Fresh

/-! ### The host's notation -/

/-- R52, R54: a register is reached at its own bus offset `4n` from `BASE`, and at no other address. That this holds of
every `BASE`, a multiple of 4 or not, is the model's choice (log entry 12). -/
def Obligations.BusAddressReachesItsRegister : Prop :=
  ∀ (cfg : Config) (r : Reg) (addr : Nat), regAtBusAddress cfg addr = some r ↔ addr = cfg.base + 4 * r.number

/-- R80: the CMD writes that the command lines stand for. -/
def Obligations.CommandLinesStandForTheirWords : Prop :=
  (∀ w : Nat, w ≤ 32 → AsmLine.accesses (.command (.encode false w)) = some [.writeReg .cmd (BitVec.ofNat 32 (1 + 256 * w))]) ∧
  (∀ w : Nat, w ≤ 32 →
    AsmLine.accesses (.command (.encode true w)) = some [.writeReg .cmd (BitVec.ofNat 32 (1 + 64 + 256 * w))]) ∧
  AsmLine.accesses (.command .csum) = some [.writeReg .cmd 2] ∧
  (∀ p : Place, AsmLine.accesses (.command (.tcphdr p)) = some [.writeReg .cmd (BitVec.ofNat 32 (3 + 16 * fieldOfPlace p))]) ∧
  AsmLine.accesses (.command .iphdr) = some [.writeReg .cmd 4] ∧
  (∀ p : Place,
    AsmLine.accesses (.command (.assemble p)) = some [.writeReg .cmd (BitVec.ofNat 32 (5 + 16 * fieldOfPlace p))])
end

