-- ==== Sys2Proof/Laws/State.lean ====
section
/-! SUPPORT. One lemma per field per update of State, and for the writes of registers: no later proof unfolds a record
update. -/

namespace Sys2Proof.Machine

variable (s : State)

/-! ### `invalidate` -/

@[simp] theorem State.invalidate_cfg : s.invalidate.cfg = s.cfg := rfl
@[simp] theorem State.invalidate_srcaddr : s.invalidate.srcaddr = s.srcaddr := rfl
@[simp] theorem State.invalidate_dstaddr : s.invalidate.dstaddr = s.dstaddr := rfl
@[simp] theorem State.invalidate_sport : s.invalidate.sport = s.sport := rfl
@[simp] theorem State.invalidate_dport : s.invalidate.dport = s.dport := rfl
@[simp] theorem State.invalidate_seq : s.invalidate.seq = s.seq := rfl
@[simp] theorem State.invalidate_ackn : s.invalidate.ackn = s.ackn := rfl
@[simp] theorem State.invalidate_plen : s.invalidate.plen = s.plen := rfl
@[simp] theorem State.invalidate_rstat : s.invalidate.rstat = s.rstat := rfl
@[simp] theorem State.invalidate_val : s.invalidate.val = s.val := rfl
@[simp] theorem State.invalidate_clen : s.invalidate.clen = s.clen := rfl
@[simp] theorem State.invalidate_cmd : s.invalidate.cmd = s.cmd := rfl
@[simp] theorem State.invalidate_status : s.invalidate.status = 0 := rfl
@[simp] theorem State.invalidate_res : s.invalidate.res = 0 := rfl
@[simp] theorem State.invalidate_rlen : s.invalidate.rlen = 0 := rfl
@[simp] theorem State.invalidate_olen : s.invalidate.olen = 0 := rfl
@[simp] theorem State.invalidate_pbuf : s.invalidate.pbuf = s.pbuf := rfl
@[simp] theorem State.invalidate_obuf : s.invalidate.obuf = s.obuf := rfl
@[simp] theorem State.invalidate_pending : s.invalidate.pending = s.pending := rfl
@[simp] theorem State.invalidate_answer : s.invalidate.answer = s.answer := rfl

/-! ### `beginCommand` -/

@[simp] theorem State.beginCommand_cfg (c : Word) : (s.beginCommand c).cfg = s.cfg := rfl
@[simp] theorem State.beginCommand_srcaddr (c : Word) : (s.beginCommand c).srcaddr = s.srcaddr := rfl
@[simp] theorem State.beginCommand_dstaddr (c : Word) : (s.beginCommand c).dstaddr = s.dstaddr := rfl
@[simp] theorem State.beginCommand_sport (c : Word) : (s.beginCommand c).sport = s.sport := rfl
@[simp] theorem State.beginCommand_dport (c : Word) : (s.beginCommand c).dport = s.dport := rfl
@[simp] theorem State.beginCommand_seq (c : Word) : (s.beginCommand c).seq = s.seq := rfl
@[simp] theorem State.beginCommand_ackn (c : Word) : (s.beginCommand c).ackn = s.ackn := rfl
@[simp] theorem State.beginCommand_plen (c : Word) : (s.beginCommand c).plen = s.plen := rfl
@[simp] theorem State.beginCommand_rstat (c : Word) : (s.beginCommand c).rstat = s.rstat := rfl
@[simp] theorem State.beginCommand_val (c : Word) : (s.beginCommand c).val = s.val := rfl
@[simp] theorem State.beginCommand_clen (c : Word) : (s.beginCommand c).clen = s.clen := rfl
@[simp] theorem State.beginCommand_cmd (c : Word) : (s.beginCommand c).cmd = c := rfl
@[simp] theorem State.beginCommand_status (c : Word) : (s.beginCommand c).status = 0 := rfl
@[simp] theorem State.beginCommand_res (c : Word) : (s.beginCommand c).res = 0 := rfl
@[simp] theorem State.beginCommand_rlen (c : Word) : (s.beginCommand c).rlen = 0 := rfl
@[simp] theorem State.beginCommand_olen (c : Word) : (s.beginCommand c).olen = 0 := rfl
@[simp] theorem State.beginCommand_pbuf (c : Word) : (s.beginCommand c).pbuf = s.pbuf := rfl
@[simp] theorem State.beginCommand_obuf (c : Word) : (s.beginCommand c).obuf = s.obuf := rfl
@[simp] theorem State.beginCommand_pending (c : Word) : (s.beginCommand c).pending = s.pending := rfl
@[simp] theorem State.beginCommand_answer (c : Word) : (s.beginCommand c).answer = s.answer := rfl

/-! ### `raise` -/

@[simp] theorem State.raise_cfg (e : Error) : (s.raise e).cfg = s.cfg := rfl
@[simp] theorem State.raise_srcaddr (e : Error) : (s.raise e).srcaddr = s.srcaddr := rfl
@[simp] theorem State.raise_dstaddr (e : Error) : (s.raise e).dstaddr = s.dstaddr := rfl
@[simp] theorem State.raise_sport (e : Error) : (s.raise e).sport = s.sport := rfl
@[simp] theorem State.raise_dport (e : Error) : (s.raise e).dport = s.dport := rfl
@[simp] theorem State.raise_seq (e : Error) : (s.raise e).seq = s.seq := rfl
@[simp] theorem State.raise_ackn (e : Error) : (s.raise e).ackn = s.ackn := rfl
@[simp] theorem State.raise_plen (e : Error) : (s.raise e).plen = s.plen := rfl
@[simp] theorem State.raise_rstat (e : Error) : (s.raise e).rstat = s.rstat := rfl
@[simp] theorem State.raise_val (e : Error) : (s.raise e).val = s.val := rfl
@[simp] theorem State.raise_clen (e : Error) : (s.raise e).clen = s.clen := rfl
@[simp] theorem State.raise_cmd (e : Error) : (s.raise e).cmd = s.cmd := rfl
@[simp] theorem State.raise_status (e : Error) : (s.raise e).status = statusError e := rfl
@[simp] theorem State.raise_res (e : Error) : (s.raise e).res = 0 := rfl
@[simp] theorem State.raise_rlen (e : Error) : (s.raise e).rlen = 0 := rfl
@[simp] theorem State.raise_olen (e : Error) : (s.raise e).olen = 0 := rfl
@[simp] theorem State.raise_pbuf (e : Error) : (s.raise e).pbuf = s.pbuf := rfl
@[simp] theorem State.raise_obuf (e : Error) : (s.raise e).obuf = s.obuf := rfl
@[simp] theorem State.raise_pending (e : Error) : (s.raise e).pending = s.pending := rfl
@[simp] theorem State.raise_answer (e : Error) : (s.raise e).answer = s.answer := rfl

/-! ### `finishNumber` -/

@[simp] theorem State.finishNumber_cfg (r l : Nat) : (s.finishNumber r l).cfg = s.cfg := rfl
@[simp] theorem State.finishNumber_srcaddr (r l : Nat) : (s.finishNumber r l).srcaddr = s.srcaddr := rfl
@[simp] theorem State.finishNumber_dstaddr (r l : Nat) : (s.finishNumber r l).dstaddr = s.dstaddr := rfl
@[simp] theorem State.finishNumber_sport (r l : Nat) : (s.finishNumber r l).sport = s.sport := rfl
@[simp] theorem State.finishNumber_dport (r l : Nat) : (s.finishNumber r l).dport = s.dport := rfl
@[simp] theorem State.finishNumber_seq (r l : Nat) : (s.finishNumber r l).seq = s.seq := rfl
@[simp] theorem State.finishNumber_ackn (r l : Nat) : (s.finishNumber r l).ackn = s.ackn := rfl
@[simp] theorem State.finishNumber_plen (r l : Nat) : (s.finishNumber r l).plen = s.plen := rfl
@[simp] theorem State.finishNumber_rstat (r l : Nat) : (s.finishNumber r l).rstat = s.rstat := rfl
@[simp] theorem State.finishNumber_val (r l : Nat) : (s.finishNumber r l).val = s.val := rfl
@[simp] theorem State.finishNumber_clen (r l : Nat) : (s.finishNumber r l).clen = s.clen := rfl
@[simp] theorem State.finishNumber_cmd (r l : Nat) : (s.finishNumber r l).cmd = s.cmd := rfl
@[simp] theorem State.finishNumber_status (r l : Nat) : (s.finishNumber r l).status = statusDone := rfl
@[simp] theorem State.finishNumber_res (r l : Nat) : (s.finishNumber r l).res = BitVec.ofNat 32 r := rfl
@[simp] theorem State.finishNumber_rlen (r l : Nat) : (s.finishNumber r l).rlen = BitVec.ofNat 32 l := rfl
@[simp] theorem State.finishNumber_olen (r l : Nat) : (s.finishNumber r l).olen = 0 := rfl
@[simp] theorem State.finishNumber_pbuf (r l : Nat) : (s.finishNumber r l).pbuf = s.pbuf := rfl
@[simp] theorem State.finishNumber_obuf (r l : Nat) : (s.finishNumber r l).obuf = s.obuf := rfl
@[simp] theorem State.finishNumber_pending (r l : Nat) : (s.finishNumber r l).pending = s.pending := rfl
@[simp] theorem State.finishNumber_answer (r l : Nat) : (s.finishNumber r l).answer = s.answer := rfl

/-! ### `finishOutput` -/

@[simp] theorem State.finishOutput_cfg (bs : List Byte) : (s.finishOutput bs).cfg = s.cfg := rfl
@[simp] theorem State.finishOutput_srcaddr (bs : List Byte) : (s.finishOutput bs).srcaddr = s.srcaddr := rfl
@[simp] theorem State.finishOutput_dstaddr (bs : List Byte) : (s.finishOutput bs).dstaddr = s.dstaddr := rfl
@[simp] theorem State.finishOutput_sport (bs : List Byte) : (s.finishOutput bs).sport = s.sport := rfl
@[simp] theorem State.finishOutput_dport (bs : List Byte) : (s.finishOutput bs).dport = s.dport := rfl
@[simp] theorem State.finishOutput_seq (bs : List Byte) : (s.finishOutput bs).seq = s.seq := rfl
@[simp] theorem State.finishOutput_ackn (bs : List Byte) : (s.finishOutput bs).ackn = s.ackn := rfl
@[simp] theorem State.finishOutput_plen (bs : List Byte) : (s.finishOutput bs).plen = s.plen := rfl
@[simp] theorem State.finishOutput_rstat (bs : List Byte) : (s.finishOutput bs).rstat = s.rstat := rfl
@[simp] theorem State.finishOutput_val (bs : List Byte) : (s.finishOutput bs).val = s.val := rfl
@[simp] theorem State.finishOutput_clen (bs : List Byte) : (s.finishOutput bs).clen = s.clen := rfl
@[simp] theorem State.finishOutput_cmd (bs : List Byte) : (s.finishOutput bs).cmd = s.cmd := rfl
@[simp] theorem State.finishOutput_status (bs : List Byte) : (s.finishOutput bs).status = statusDone := rfl
@[simp] theorem State.finishOutput_res (bs : List Byte) : (s.finishOutput bs).res = 0 := rfl
@[simp] theorem State.finishOutput_rlen (bs : List Byte) : (s.finishOutput bs).rlen = 0 := rfl
@[simp] theorem State.finishOutput_olen (bs : List Byte) : (s.finishOutput bs).olen = BitVec.ofNat 32 bs.length := rfl
@[simp] theorem State.finishOutput_pbuf (bs : List Byte) : (s.finishOutput bs).pbuf = s.pbuf := rfl
@[simp] theorem State.finishOutput_obuf (bs : List Byte) : (s.finishOutput bs).obuf = Memory.writeBlock s.obuf 0 bs := rfl
@[simp] theorem State.finishOutput_pending (bs : List Byte) : (s.finishOutput bs).pending = s.pending := rfl
@[simp] theorem State.finishOutput_answer (bs : List Byte) : (s.finishOutput bs).answer = s.answer := rfl

/-! ### `writeBuf` -/

@[simp] theorem State.writeBuf_cfg (i : Nat) (b : Byte) : (s.writeBuf i b).cfg = s.cfg := rfl
@[simp] theorem State.writeBuf_srcaddr (i : Nat) (b : Byte) : (s.writeBuf i b).srcaddr = s.srcaddr := rfl
@[simp] theorem State.writeBuf_dstaddr (i : Nat) (b : Byte) : (s.writeBuf i b).dstaddr = s.dstaddr := rfl
@[simp] theorem State.writeBuf_sport (i : Nat) (b : Byte) : (s.writeBuf i b).sport = s.sport := rfl
@[simp] theorem State.writeBuf_dport (i : Nat) (b : Byte) : (s.writeBuf i b).dport = s.dport := rfl
@[simp] theorem State.writeBuf_seq (i : Nat) (b : Byte) : (s.writeBuf i b).seq = s.seq := rfl
@[simp] theorem State.writeBuf_ackn (i : Nat) (b : Byte) : (s.writeBuf i b).ackn = s.ackn := rfl
@[simp] theorem State.writeBuf_plen (i : Nat) (b : Byte) : (s.writeBuf i b).plen = s.plen := rfl
@[simp] theorem State.writeBuf_rstat (i : Nat) (b : Byte) : (s.writeBuf i b).rstat = s.rstat := rfl
@[simp] theorem State.writeBuf_val (i : Nat) (b : Byte) : (s.writeBuf i b).val = s.val := rfl
@[simp] theorem State.writeBuf_clen (i : Nat) (b : Byte) : (s.writeBuf i b).clen = s.clen := rfl
@[simp] theorem State.writeBuf_cmd (i : Nat) (b : Byte) : (s.writeBuf i b).cmd = s.cmd := rfl
@[simp] theorem State.writeBuf_status (i : Nat) (b : Byte) : (s.writeBuf i b).status = 0 := rfl
@[simp] theorem State.writeBuf_res (i : Nat) (b : Byte) : (s.writeBuf i b).res = 0 := rfl
@[simp] theorem State.writeBuf_rlen (i : Nat) (b : Byte) : (s.writeBuf i b).rlen = 0 := rfl
@[simp] theorem State.writeBuf_olen (i : Nat) (b : Byte) : (s.writeBuf i b).olen = 0 := rfl
@[simp] theorem State.writeBuf_pbuf (i : Nat) (b : Byte) : (s.writeBuf i b).pbuf = Memory.write s.pbuf i b := rfl
@[simp] theorem State.writeBuf_obuf (i : Nat) (b : Byte) : (s.writeBuf i b).obuf = s.obuf := rfl
@[simp] theorem State.writeBuf_pending (i : Nat) (b : Byte) : (s.writeBuf i b).pending = s.pending := rfl
@[simp] theorem State.writeBuf_answer (i : Nat) (b : Byte) : (s.writeBuf i b).answer = s.answer := rfl

/-! ### `issue` -/

@[simp] theorem State.issue_cfg (rest : List HostEvent) : (s.issue rest).cfg = s.cfg := rfl
@[simp] theorem State.issue_srcaddr (rest : List HostEvent) : (s.issue rest).srcaddr = s.srcaddr := rfl
@[simp] theorem State.issue_dstaddr (rest : List HostEvent) : (s.issue rest).dstaddr = s.dstaddr := rfl
@[simp] theorem State.issue_sport (rest : List HostEvent) : (s.issue rest).sport = s.sport := rfl
@[simp] theorem State.issue_dport (rest : List HostEvent) : (s.issue rest).dport = s.dport := rfl
@[simp] theorem State.issue_seq (rest : List HostEvent) : (s.issue rest).seq = s.seq := rfl
@[simp] theorem State.issue_ackn (rest : List HostEvent) : (s.issue rest).ackn = s.ackn := rfl
@[simp] theorem State.issue_plen (rest : List HostEvent) : (s.issue rest).plen = s.plen := rfl
@[simp] theorem State.issue_rstat (rest : List HostEvent) : (s.issue rest).rstat = s.rstat := rfl
@[simp] theorem State.issue_val (rest : List HostEvent) : (s.issue rest).val = s.val := rfl
@[simp] theorem State.issue_clen (rest : List HostEvent) : (s.issue rest).clen = s.clen := rfl
@[simp] theorem State.issue_cmd (rest : List HostEvent) : (s.issue rest).cmd = s.cmd := rfl
@[simp] theorem State.issue_status (rest : List HostEvent) : (s.issue rest).status = s.status := rfl
@[simp] theorem State.issue_res (rest : List HostEvent) : (s.issue rest).res = s.res := rfl
@[simp] theorem State.issue_rlen (rest : List HostEvent) : (s.issue rest).rlen = s.rlen := rfl
@[simp] theorem State.issue_olen (rest : List HostEvent) : (s.issue rest).olen = s.olen := rfl
@[simp] theorem State.issue_pbuf (rest : List HostEvent) : (s.issue rest).pbuf = s.pbuf := rfl
@[simp] theorem State.issue_obuf (rest : List HostEvent) : (s.issue rest).obuf = s.obuf := rfl
@[simp] theorem State.issue_pending (rest : List HostEvent) : (s.issue rest).pending = rest := rfl
@[simp] theorem State.issue_answer (rest : List HostEvent) : (s.issue rest).answer = none := rfl

/-! ### `enqueueFirst` -/

@[simp] theorem State.enqueueFirst_cfg (e : HostEvent) : (s.enqueueFirst e).cfg = s.cfg := rfl
@[simp] theorem State.enqueueFirst_srcaddr (e : HostEvent) : (s.enqueueFirst e).srcaddr = s.srcaddr := rfl
@[simp] theorem State.enqueueFirst_dstaddr (e : HostEvent) : (s.enqueueFirst e).dstaddr = s.dstaddr := rfl
@[simp] theorem State.enqueueFirst_sport (e : HostEvent) : (s.enqueueFirst e).sport = s.sport := rfl
@[simp] theorem State.enqueueFirst_dport (e : HostEvent) : (s.enqueueFirst e).dport = s.dport := rfl
@[simp] theorem State.enqueueFirst_seq (e : HostEvent) : (s.enqueueFirst e).seq = s.seq := rfl
@[simp] theorem State.enqueueFirst_ackn (e : HostEvent) : (s.enqueueFirst e).ackn = s.ackn := rfl
@[simp] theorem State.enqueueFirst_plen (e : HostEvent) : (s.enqueueFirst e).plen = s.plen := rfl
@[simp] theorem State.enqueueFirst_rstat (e : HostEvent) : (s.enqueueFirst e).rstat = s.rstat := rfl
@[simp] theorem State.enqueueFirst_val (e : HostEvent) : (s.enqueueFirst e).val = s.val := rfl
@[simp] theorem State.enqueueFirst_clen (e : HostEvent) : (s.enqueueFirst e).clen = s.clen := rfl
@[simp] theorem State.enqueueFirst_cmd (e : HostEvent) : (s.enqueueFirst e).cmd = s.cmd := rfl
@[simp] theorem State.enqueueFirst_status (e : HostEvent) : (s.enqueueFirst e).status = s.status := rfl
@[simp] theorem State.enqueueFirst_res (e : HostEvent) : (s.enqueueFirst e).res = s.res := rfl
@[simp] theorem State.enqueueFirst_rlen (e : HostEvent) : (s.enqueueFirst e).rlen = s.rlen := rfl
@[simp] theorem State.enqueueFirst_olen (e : HostEvent) : (s.enqueueFirst e).olen = s.olen := rfl
@[simp] theorem State.enqueueFirst_pbuf (e : HostEvent) : (s.enqueueFirst e).pbuf = s.pbuf := rfl
@[simp] theorem State.enqueueFirst_obuf (e : HostEvent) : (s.enqueueFirst e).obuf = s.obuf := rfl
@[simp] theorem State.enqueueFirst_pending (e : HostEvent) : (s.enqueueFirst e).pending = e :: s.pending := rfl
@[simp] theorem State.enqueueFirst_answer (e : HostEvent) : (s.enqueueFirst e).answer = s.answer := rfl

/-! ### `applyReset` -/

@[simp] theorem State.applyReset_cfg : s.applyReset.cfg = s.cfg := rfl
@[simp] theorem State.applyReset_srcaddr : s.applyReset.srcaddr = 0 := rfl
@[simp] theorem State.applyReset_dstaddr : s.applyReset.dstaddr = 0 := rfl
@[simp] theorem State.applyReset_sport : s.applyReset.sport = 0 := rfl
@[simp] theorem State.applyReset_dport : s.applyReset.dport = 0 := rfl
@[simp] theorem State.applyReset_seq : s.applyReset.seq = 0 := rfl
@[simp] theorem State.applyReset_ackn : s.applyReset.ackn = 0 := rfl
@[simp] theorem State.applyReset_plen : s.applyReset.plen = 0 := rfl
@[simp] theorem State.applyReset_rstat : s.applyReset.rstat = 0 := rfl
@[simp] theorem State.applyReset_val : s.applyReset.val = 0 := rfl
@[simp] theorem State.applyReset_clen : s.applyReset.clen = 0 := rfl
@[simp] theorem State.applyReset_cmd : s.applyReset.cmd = 0 := rfl
@[simp] theorem State.applyReset_status : s.applyReset.status = 0 := rfl
@[simp] theorem State.applyReset_res : s.applyReset.res = 0 := rfl
@[simp] theorem State.applyReset_rlen : s.applyReset.rlen = 0 := rfl
@[simp] theorem State.applyReset_olen : s.applyReset.olen = 0 := rfl
@[simp] theorem State.applyReset_pbuf : s.applyReset.pbuf = [] := rfl
@[simp] theorem State.applyReset_obuf : s.applyReset.obuf = [] := rfl
@[simp] theorem State.applyReset_pending : s.applyReset.pending = s.pending := rfl
@[simp] theorem State.applyReset_answer : s.applyReset.answer = none := rfl

/-! ### `reporting` -/

@[simp] theorem State.reporting_cfg (w : Word) : (s.reporting w).cfg = s.cfg := rfl
@[simp] theorem State.reporting_srcaddr (w : Word) : (s.reporting w).srcaddr = s.srcaddr := rfl
@[simp] theorem State.reporting_dstaddr (w : Word) : (s.reporting w).dstaddr = s.dstaddr := rfl
@[simp] theorem State.reporting_sport (w : Word) : (s.reporting w).sport = s.sport := rfl
@[simp] theorem State.reporting_dport (w : Word) : (s.reporting w).dport = s.dport := rfl
@[simp] theorem State.reporting_seq (w : Word) : (s.reporting w).seq = s.seq := rfl
@[simp] theorem State.reporting_ackn (w : Word) : (s.reporting w).ackn = s.ackn := rfl
@[simp] theorem State.reporting_plen (w : Word) : (s.reporting w).plen = s.plen := rfl
@[simp] theorem State.reporting_rstat (w : Word) : (s.reporting w).rstat = s.rstat := rfl
@[simp] theorem State.reporting_val (w : Word) : (s.reporting w).val = s.val := rfl
@[simp] theorem State.reporting_clen (w : Word) : (s.reporting w).clen = s.clen := rfl
@[simp] theorem State.reporting_cmd (w : Word) : (s.reporting w).cmd = s.cmd := rfl
@[simp] theorem State.reporting_status (w : Word) : (s.reporting w).status = w := rfl
@[simp] theorem State.reporting_res (w : Word) : (s.reporting w).res = 0 := rfl
@[simp] theorem State.reporting_rlen (w : Word) : (s.reporting w).rlen = 0 := rfl
@[simp] theorem State.reporting_olen (w : Word) : (s.reporting w).olen = 0 := rfl
@[simp] theorem State.reporting_pbuf (w : Word) : (s.reporting w).pbuf = s.pbuf := rfl
@[simp] theorem State.reporting_obuf (w : Word) : (s.reporting w).obuf = s.obuf := rfl
@[simp] theorem State.reporting_pending (w : Word) : (s.reporting w).pending = s.pending := rfl
@[simp] theorem State.reporting_answer (w : Word) : (s.reporting w).answer = s.answer := rfl

/-! ### `holding` -/

@[simp] theorem State.holding_cfg (bs : List Byte) (n : Nat) : (s.holding bs n).cfg = s.cfg := rfl
@[simp] theorem State.holding_srcaddr (bs : List Byte) (n : Nat) : (s.holding bs n).srcaddr = s.srcaddr := rfl
@[simp] theorem State.holding_dstaddr (bs : List Byte) (n : Nat) : (s.holding bs n).dstaddr = s.dstaddr := rfl
@[simp] theorem State.holding_sport (bs : List Byte) (n : Nat) : (s.holding bs n).sport = s.sport := rfl
@[simp] theorem State.holding_dport (bs : List Byte) (n : Nat) : (s.holding bs n).dport = s.dport := rfl
@[simp] theorem State.holding_seq (bs : List Byte) (n : Nat) : (s.holding bs n).seq = s.seq := rfl
@[simp] theorem State.holding_ackn (bs : List Byte) (n : Nat) : (s.holding bs n).ackn = s.ackn := rfl
@[simp] theorem State.holding_plen (bs : List Byte) (n : Nat) : (s.holding bs n).plen = s.plen := rfl
@[simp] theorem State.holding_rstat (bs : List Byte) (n : Nat) : (s.holding bs n).rstat = s.rstat := rfl
@[simp] theorem State.holding_val (bs : List Byte) (n : Nat) : (s.holding bs n).val = s.val := rfl
@[simp] theorem State.holding_clen (bs : List Byte) (n : Nat) : (s.holding bs n).clen = s.clen := rfl
@[simp] theorem State.holding_cmd (bs : List Byte) (n : Nat) : (s.holding bs n).cmd = s.cmd := rfl
@[simp] theorem State.holding_status (bs : List Byte) (n : Nat) : (s.holding bs n).status = 1 := rfl
@[simp] theorem State.holding_res (bs : List Byte) (n : Nat) : (s.holding bs n).res = 0 := rfl
@[simp] theorem State.holding_rlen (bs : List Byte) (n : Nat) : (s.holding bs n).rlen = 0 := rfl
@[simp] theorem State.holding_olen (bs : List Byte) (n : Nat) : (s.holding bs n).olen = BitVec.ofNat 32 n := rfl
@[simp] theorem State.holding_pbuf (bs : List Byte) (n : Nat) : (s.holding bs n).pbuf = s.pbuf := rfl
@[simp] theorem State.holding_obuf (bs : List Byte) (n : Nat) : (s.holding bs n).obuf = Memory.writeBlock s.obuf 0 bs := rfl
@[simp] theorem State.holding_pending (bs : List Byte) (n : Nat) : (s.holding bs n).pending = s.pending := rfl
@[simp] theorem State.holding_answer (bs : List Byte) (n : Nat) : (s.holding bs n).answer = s.answer := rfl

/-! ### `resetWith` -/

@[simp] theorem State.resetWith_cfg (cfg : Config) : (State.resetWith cfg).cfg = cfg := rfl
@[simp] theorem State.resetWith_srcaddr (cfg : Config) : (State.resetWith cfg).srcaddr = 0 := rfl
@[simp] theorem State.resetWith_dstaddr (cfg : Config) : (State.resetWith cfg).dstaddr = 0 := rfl
@[simp] theorem State.resetWith_sport (cfg : Config) : (State.resetWith cfg).sport = 0 := rfl
@[simp] theorem State.resetWith_dport (cfg : Config) : (State.resetWith cfg).dport = 0 := rfl
@[simp] theorem State.resetWith_seq (cfg : Config) : (State.resetWith cfg).seq = 0 := rfl
@[simp] theorem State.resetWith_ackn (cfg : Config) : (State.resetWith cfg).ackn = 0 := rfl
@[simp] theorem State.resetWith_plen (cfg : Config) : (State.resetWith cfg).plen = 0 := rfl
@[simp] theorem State.resetWith_rstat (cfg : Config) : (State.resetWith cfg).rstat = 0 := rfl
@[simp] theorem State.resetWith_val (cfg : Config) : (State.resetWith cfg).val = 0 := rfl
@[simp] theorem State.resetWith_clen (cfg : Config) : (State.resetWith cfg).clen = 0 := rfl
@[simp] theorem State.resetWith_cmd (cfg : Config) : (State.resetWith cfg).cmd = 0 := rfl
@[simp] theorem State.resetWith_status (cfg : Config) : (State.resetWith cfg).status = 0 := rfl
@[simp] theorem State.resetWith_res (cfg : Config) : (State.resetWith cfg).res = 0 := rfl
@[simp] theorem State.resetWith_rlen (cfg : Config) : (State.resetWith cfg).rlen = 0 := rfl
@[simp] theorem State.resetWith_olen (cfg : Config) : (State.resetWith cfg).olen = 0 := rfl
@[simp] theorem State.resetWith_pbuf (cfg : Config) : (State.resetWith cfg).pbuf = [] := rfl
@[simp] theorem State.resetWith_obuf (cfg : Config) : (State.resetWith cfg).obuf = [] := rfl
@[simp] theorem State.resetWith_pending (cfg : Config) : (State.resetWith cfg).pending = [] := rfl
@[simp] theorem State.resetWith_answer (cfg : Config) : (State.resetWith cfg).answer = none := rfl

/-! ### Registers -/

/-- Writing an operand register changes that register and clears the result (R31). -/
theorem State.readReg_writeReg (r q : Reg) (v : Word) (h : r.isOperand = true) :
    (s.writeReg r v).readReg q =
      if q = r then v else if q.number ≤ 10 then s.readReg q else 0 := by
  cases r <;> cases q <;> first | rfl | (exact absurd h (by decide))

/-- A write to a read-only or reserved register changes nothing (R24). -/
theorem State.writeReg_readOnly (r : Reg) (v : Word) (h : r.isOperand = false) : s.writeReg r v = s := by
  cases r <;> first | rfl | (exact absurd h (by decide))

/-- What any write of `State.writeReg` leaves: everything but registers as it was, and a cleared result or the same
state (R53). -/
theorem State.writeReg_frame (r : Reg) (v : Word) :
    (s.writeReg r v).cfg = s.cfg ∧ (s.writeReg r v).cmd = s.cmd ∧ (s.writeReg r v).pbuf = s.pbuf ∧
      (s.writeReg r v).obuf = s.obuf ∧ (s.writeReg r v).pending = s.pending ∧ (s.writeReg r v).answer = s.answer := by
  cases r <;> exact ⟨rfl, rfl, rfl, rfl, rfl, rfl⟩

/-- A write of `State.writeReg` clears the result or is no change at all (R24, R31). -/
theorem State.writeReg_clears (r : Reg) (v : Word) :
    s.writeReg r v = s ∨
      (s.writeReg r v).status = 0 ∧ (s.writeReg r v).res = 0 ∧ (s.writeReg r v).rlen = 0 ∧ (s.writeReg r v).olen = 0 := by
  cases r <;> first | exact .inl rfl | exact .inr ⟨rfl, rfl, rfl, rfl⟩

/-- Names and numbers of registers go together. -/
theorem Reg.ofNumber_eq_some_iff (n : Nat) (r : Reg) : Reg.ofNumber n = some r ↔ n = r.number := by
  constructor
  · intro h
    unfold Reg.ofNumber at h
    split at h <;> first | (injection h with h; subst h; rfl) | cases h
  · rintro rfl
    cases r <;> rfl

end Sys2Proof.Machine
end

