-- ==== Sys2Proof/Laws/Memory.lean ====
section
/-! SUPPORT. Laws of the buffers: a read after a write, the canonical form, and what a block read answers. -/

namespace Sys2Proof.Machine

/-! ### The block of cells a write puts in -/

theorem Memory.cells_bounds {base : Nat} {bs : List Byte} {c : Host.Cell} (h : c ∈ Memory.cells base bs) :
    base ≤ c.1 ∧ c.1 < base + bs.length := by
  induction bs generalizing base with
  | nil => cases h
  | cons b bs ih =>
    simp only [Memory.cells, List.mem_cons] at h
    rcases h with rfl | h
    · simp
    · have := ih h
      simp only [List.length_cons]
      omega

theorem Memory.wf_cells (base : Nat) (bs : List Byte) : Memory.wf (Memory.cells base bs) := by
  induction bs generalizing base with
  | nil => exact List.Pairwise.nil
  | cons b bs ih =>
    refine List.Pairwise.cons (fun c hc => ?_) (ih (base + 1))
    have := Memory.cells_bounds hc
    simp only
    omega

theorem Memory.read_cons (c : Host.Cell) (m : Memory) (a : Nat) :
    Memory.read (c :: m) a = if a = c.1 then some c.2 else Memory.read m a := by
  unfold Memory.read
  rw [List.lookup_cons]
  by_cases h : a = c.1
  · simp [h]
  · rw [beq_eq_false_iff_ne.2 h, if_neg h]

theorem Memory.read_append (m m' : Memory) (a : Nat) :
    Memory.read (m ++ m') a = (Memory.read m a).or (Memory.read m' a) := by
  induction m with
  | nil => simp [Memory.read]
  | cons c m ih =>
    rw [List.cons_append, Memory.read_cons, Memory.read_cons]
    split
    · rfl
    · exact ih

theorem Memory.read_eq_none_of {m : Memory} {a : Nat} (h : ∀ c ∈ m, c.1 ≠ a) : Memory.read m a = none := by
  induction m with
  | nil => rfl
  | cons c m ih =>
    rw [Memory.read_cons, if_neg (fun e => h c (by simp) e.symm)]
    exact ih (fun d hd => h d (by simp [hd]))

theorem Memory.read_filter {m : Memory} {a : Nat} {p : Nat → Bool} (h : p a = true) :
    Memory.read (m.filter (fun c => p c.1)) a = Memory.read m a := by
  induction m with
  | nil => rfl
  | cons c m ih =>
    rw [List.filter_cons, Memory.read_cons]
    by_cases hc : p c.1 = true
    · rw [if_pos hc, Memory.read_cons, ih]
    · rw [if_neg hc, ih, if_neg]
      rintro rfl
      exact hc h

theorem Memory.read_cells (base : Nat) (bs : List Byte) (k : Nat) :
    Memory.read (Memory.cells base bs) (base + k) = bs[k]? := by
  induction bs generalizing base k with
  | nil => rfl
  | cons b bs ih =>
    rw [Memory.cells, Memory.read_cons]
    cases k with
    | zero => simp
    | succ k =>
      rw [if_neg (by simp), show base + (k + 1) = base + 1 + k by omega, ih]
      simp

/-! ### A read after a block write (R10 `MemWrite`) -/

/-- Inside the block, the byte written. -/
theorem Memory.read_writeBlock_inside (m : Memory) (base : Nat) (bs : List Byte) {k : Nat} (h : k < bs.length) :
    Memory.read (Memory.writeBlock m base bs) (base + k) = bs[k]? := by
  have hlow : Memory.read (m.filter (fun c => c.1 < base)) (base + k) = none :=
    Memory.read_eq_none_of (fun c hc => by
      have := (List.mem_filter.1 hc).2
      simp only [decide_eq_true_eq] at this
      omega)
  rw [Memory.writeBlock, Memory.read_append, Memory.read_append, hlow, Memory.read_cells]
  simp [List.getElem?_eq_getElem h]

/-- Outside the block, the byte from before. -/
theorem Memory.read_writeBlock_outside (m : Memory) (base : Nat) (bs : List Byte) {a : Nat}
    (h : a < base ∨ base + bs.length ≤ a) : Memory.read (Memory.writeBlock m base bs) a = Memory.read m a := by
  have hmid : Memory.read (Memory.cells base bs) a = none :=
    Memory.read_eq_none_of (fun c hc => by
      have := Memory.cells_bounds hc
      omega)
  rw [Memory.writeBlock, Memory.read_append, Memory.read_append, hmid]
  rcases h with h | h
  · rw [Memory.read_filter (p := fun x => decide (x < base)) (by simpa using h)]
    rw [Memory.read_eq_none_of (m := m.filter (fun c => base + bs.length ≤ c.1)) (fun c hc => by
      have := (List.mem_filter.1 hc).2
      simp only [decide_eq_true_eq] at this
      omega)]
    simp
  · rw [Memory.read_filter (p := fun x => decide (base + bs.length ≤ x)) (by simpa using h)]
    rw [Memory.read_eq_none_of (m := m.filter (fun c => c.1 < base)) (fun c hc => by
      have := (List.mem_filter.1 hc).2
      simp only [decide_eq_true_eq] at this
      omega)]
    simp

/-- The byte written. -/
@[simp] theorem Memory.read_write_same (m : Memory) (a : Nat) (b : Byte) :
    Memory.read (Memory.write m a b) a = some b :=
  Memory.read_writeBlock_inside m a [b] (k := 0) (by simp)

/-- Every other byte. -/
theorem Memory.read_write_other (m : Memory) {a c : Nat} (b : Byte) (h : c ≠ a) :
    Memory.read (Memory.write m a b) c = Memory.read m c :=
  Memory.read_writeBlock_outside m a [b] (by simp only [List.length_singleton]; omega)

/-! ### The canonical form -/

/-- A block write keeps the canonical form. -/
theorem Memory.wf_writeBlock {m : Memory} (h : Memory.wf m) (base : Nat) (bs : List Byte) :
    Memory.wf (Memory.writeBlock m base bs) := by
  unfold Memory.writeBlock
  refine List.pairwise_append.2 ⟨List.pairwise_append.2 ⟨h.filter _, Memory.wf_cells base bs, ?_⟩, h.filter _, ?_⟩
  · intro c hc d hd
    have h₁ := (List.mem_filter.1 hc).2
    have h₂ := Memory.cells_bounds hd
    simp only [decide_eq_true_eq] at h₁
    omega
  · intro c hc d hd
    have h₂ := (List.mem_filter.1 hd).2
    simp only [decide_eq_true_eq] at h₂
    rcases List.mem_append.1 hc with hc | hc
    · have h₁ := (List.mem_filter.1 hc).2
      simp only [decide_eq_true_eq] at h₁
      omega
    · have h₁ := Memory.cells_bounds hc
      omega

/-- A write of one byte keeps the canonical form. -/
theorem Memory.wf_write {m : Memory} (h : Memory.wf m) (a : Nat) (b : Byte) : Memory.wf (Memory.write m a b) :=
  Memory.wf_writeBlock h a [b]

/-- A block write adds no cell outside the block. -/
theorem Memory.mem_writeBlock {m : Memory} {base : Nat} {bs : List Byte} {c : Host.Cell}
    (h : c ∈ Memory.writeBlock m base bs) : c ∈ m ∨ base ≤ c.1 ∧ c.1 < base + bs.length := by
  rcases List.mem_append.1 h with h | h
  · rcases List.mem_append.1 h with h | h
    · exact .inl (List.mem_filter.1 h).1
    · exact .inr (Memory.cells_bounds h)
  · exact .inl (List.mem_filter.1 h).1

theorem Memory.cells_filter_below (base : Nat) (bs : List Byte) :
    (Memory.cells base bs).filter (fun c => c.1 < base) = [] :=
  List.filter_eq_nil_iff.2 (fun c hc => by simpa using (Memory.cells_bounds hc).1)

theorem Memory.cells_filter_above (base : Nat) (bs : List Byte) :
    (Memory.cells base bs).filter (fun c => base + bs.length ≤ c.1) = [] :=
  List.filter_eq_nil_iff.2 (fun c hc => by simpa using (Memory.cells_bounds hc).2)

theorem Memory.filter_filter_of_imp {m : Memory} {p q : Host.Cell → Bool} (h : ∀ c ∈ m, p c = true → q c = true) :
    (m.filter p).filter q = m.filter p :=
  List.filter_eq_self.2 (fun c hc => h c (List.mem_filter.1 hc).1 (List.mem_filter.1 hc).2)

theorem Memory.filter_filter_of_disjoint {m : Memory} {p q : Host.Cell → Bool}
    (h : ∀ c ∈ m, p c = true → q c = false) : (m.filter p).filter q = [] :=
  List.filter_eq_nil_iff.2 (fun c hc => by simp [h c (List.mem_filter.1 hc).1 (List.mem_filter.1 hc).2])

/-- Writing the same block again changes nothing. -/
theorem Memory.writeBlock_writeBlock_same (m : Memory) (base : Nat) (bs : List Byte) :
    Memory.writeBlock (Memory.writeBlock m base bs) base bs = Memory.writeBlock m base bs := by
  have hlow : (Memory.writeBlock m base bs).filter (fun c => c.1 < base) = m.filter (fun c => c.1 < base) := by
    unfold Memory.writeBlock
    rw [List.filter_append, List.filter_append, Memory.filter_filter_of_imp (fun c _ h => h), Memory.cells_filter_below,
      Memory.filter_filter_of_disjoint (fun c _ h => by
        simp only [decide_eq_true_eq] at h
        simp only [decide_eq_false_iff_not]
        omega)]
    simp
  have hhigh : (Memory.writeBlock m base bs).filter (fun c => base + bs.length ≤ c.1) =
      m.filter (fun c => base + bs.length ≤ c.1) := by
    unfold Memory.writeBlock
    rw [List.filter_append, List.filter_append, Memory.filter_filter_of_imp (fun c _ h => h), Memory.cells_filter_above,
      Memory.filter_filter_of_disjoint (fun c _ h => by
        simp only [decide_eq_true_eq] at h
        simp only [decide_eq_false_iff_not]
        omega)]
    simp
  rw [Memory.writeBlock, hlow, hhigh]
  rfl

/-! ### A block read (R10 `MemRead`) -/

theorem Memory.read_eq_none_of_lt_head {c : Host.Cell} {m : Memory} (h : Memory.wf (c :: m)) {a : Nat} (ha : a < c.1) :
    Memory.read (c :: m) a = none :=
  Memory.read_eq_none_of (fun d hd => by
    rcases List.mem_cons.1 hd with rfl | hd
    · omega
    · have := List.rel_of_pairwise_cons h hd
      omega)

/-- A block read either gives every byte in order, or names the first byte that is unwritten. -/
theorem Memory.readBlock_spec {m : Memory} (h : Memory.wf m) (base n : Nat) :
    (∃ bs, Memory.readBlock m base n = .ok bs ∧ bs.length = n ∧ ∀ k < n, Memory.read m (base + k) = bs[k]?) ∨
    ∃ i, Memory.readBlock m base n = .error i ∧ base ≤ i ∧ i < base + n ∧ Memory.read m i = none ∧
      ∀ j, base ≤ j → j < i → Memory.read m j ≠ none := by
  induction m generalizing base n with
  | nil =>
    cases n with
    | zero => exact .inl ⟨[], rfl, rfl, fun k hk => absurd hk (by omega)⟩
    | succ n => exact .inr ⟨base, rfl, by omega, by omega, rfl, fun j _ _ => by omega⟩
  | cons c m ih =>
    have hm : Memory.wf m := List.Pairwise.of_cons h
    cases n with
    | zero => exact .inl ⟨[], rfl, rfl, fun k hk => absurd hk (by omega)⟩
    | succ n =>
      unfold Memory.readBlock
      by_cases hlt : c.1 < base
      · rw [if_pos hlt]
        have hskip : ∀ a, base ≤ a → Memory.read (c :: m) a = Memory.read m a := fun a ha => by
          rw [Memory.read_cons, if_neg (by omega)]
        rcases ih hm base (n + 1) with ⟨bs, h₁, h₂, h₃⟩ | ⟨i, h₁, h₂, h₃, h₄, h₅⟩
        · exact .inl ⟨bs, h₁, h₂, fun k hk => by rw [hskip _ (by omega)]; exact h₃ k hk⟩
        · exact .inr ⟨i, h₁, h₂, h₃, by rw [hskip _ h₂]; exact h₄, fun j hj hi => by rw [hskip _ hj]; exact h₅ j hj hi⟩
      · rw [if_neg hlt]
        by_cases heq : c.1 = base
        · rw [if_pos heq]
          have hskip : ∀ a, base + 1 ≤ a → Memory.read (c :: m) a = Memory.read m a := fun a ha => by
            rw [Memory.read_cons, if_neg (by omega)]
          have hhead : Memory.read (c :: m) base = some c.2 := by rw [Memory.read_cons, if_pos heq.symm]
          rcases ih hm (base + 1) n with ⟨bs, h₁, h₂, h₃⟩ | ⟨i, h₁, h₂, h₃, h₄, h₅⟩
          · refine .inl ⟨c.2 :: bs, by rw [h₁], by simp [h₂], fun k hk => ?_⟩
            cases k with
            | zero => simpa using hhead
            | succ k =>
              rw [hskip _ (by omega), show base + (k + 1) = base + 1 + k by omega]
              simpa using h₃ k (by omega)
          · refine .inr ⟨i, by rw [h₁], by omega, by omega, by rw [hskip _ h₂]; exact h₄, fun j hj hi => ?_⟩
            by_cases hb : j = base
            · rw [hb, hhead]; simp
            · rw [hskip _ (by omega)]; exact h₅ j (by omega) hi
        · rw [if_neg heq]
          exact .inr ⟨base, rfl, by omega, by omega, Memory.read_eq_none_of_lt_head h (by omega), fun j _ _ => by omega⟩

/-- The length of what a block read gives, in any memory. -/
theorem Memory.readBlock_length {m : Memory} {base n : Nat} {bs : List Byte} (h : Memory.readBlock m base n = .ok bs) :
    bs.length = n := by
  induction m generalizing base n bs with
  | nil =>
    cases n with
    | zero => cases h; rfl
    | succ n => cases h
  | cons c m ih =>
    cases n with
    | zero => cases h; rfl
    | succ n =>
      unfold Memory.readBlock at h
      split at h
      · exact ih h
      · split at h
        · split at h
          · cases h
          · rename_i bs' hbs
            cases h
            simp [ih hbs]
        · cases h

/-- Written bytes are read in order. -/
theorem Memory.readBlock_of_written {m : Memory} (h : Memory.wf m) {base n : Nat} {b : Nat → Byte}
    (hb : ∀ k < n, Memory.read m (base + k) = some (b k)) :
    Memory.readBlock m base n = .ok ((List.range n).map b) := by
  rcases Memory.readBlock_spec h base n with ⟨bs, h₁, h₂, h₃⟩ | ⟨i, -, h₂, h₃, h₄, -⟩
  · rw [h₁]
    congr 1
    refine List.ext_getElem (by simp [h₂]) (fun k hk hk' => ?_)
    have hk₂ : k < n := by omega
    have := (h₃ k hk₂).symm.trans (hb k hk₂)
    rw [List.getElem?_eq_getElem hk] at this
    simpa using this
  · have := hb (i - base) (by omega)
    rw [show base + (i - base) = i by omega, h₄] at this
    cases this

/-- The first unwritten byte is the one a block read names. -/
theorem Memory.readBlock_of_unwritten {m : Memory} (h : Memory.wf m) {base n i : Nat} (hi : base ≤ i)
    (hn : i < base + n) (hnone : Memory.read m i = none) (hbefore : ∀ j, base ≤ j → j < i → Memory.read m j ≠ none) :
    Memory.readBlock m base n = .error i := by
  rcases Memory.readBlock_spec h base n with ⟨bs, -, h₂, h₃⟩ | ⟨i', h₁, h₂, h₃, h₄, h₅⟩
  · have := h₃ (i - base) (by omega)
    rw [show base + (i - base) = i by omega, hnone, List.getElem?_eq_getElem (by omega)] at this
    cases this
  · rw [h₁]
    congr 1
    by_contra hne
    rcases Nat.lt_or_gt_of_ne hne with hlt | hgt
    · exact hbefore i' h₂ hlt h₄
    · exact h₅ i hi hgt hnone

/-- A block read depends only on the bytes it reads. -/
theorem Memory.readBlock_congr {m m' : Memory} (h : Memory.wf m) (h' : Memory.wf m') {base n : Nat}
    (heq : ∀ k < n, Memory.read m (base + k) = Memory.read m' (base + k)) :
    Memory.readBlock m base n = Memory.readBlock m' base n := by
  rcases Memory.readBlock_spec h base n with ⟨bs, h₁, h₂, h₃⟩ | ⟨i, h₁, h₂, h₃, h₄, h₅⟩
  · have hb : ∀ k < n, Memory.read m' (base + k) = some (bs.getD k 0) := fun k hk => by
      rw [← heq k hk, h₃ k hk, List.getD_eq_getElem?_getD, List.getElem?_eq_getElem (by omega)]
      rfl
    rw [h₁, Memory.readBlock_of_written h' hb]
    congr 1
    refine List.ext_getElem (by simp [h₂]) (fun k hk hk' => ?_)
    simp [List.getElem?_eq_getElem hk]
  · rw [h₁]
    refine (Memory.readBlock_of_unwritten h' h₂ h₃ ?_ (fun j hj hji => ?_)).symm
    · have := heq (i - base) (by omega)
      rw [show base + (i - base) = i by omega] at this
      rw [← this]; exact h₄
    · have := heq (j - base) (by omega)
      rw [show base + (j - base) = j by omega] at this
      rw [← this]; exact h₅ j hj hji

end Sys2Proof.Machine
end

