-- ==== Sys2Proof/Laws/Bits.lean ====
section
/-! SUPPORT. Laws of bit strings: their numbers and lengths (R8, R9). -/

namespace Sys2Proof.Machine

/-! ### `num` -/

theorem num_foldl (s : BitString) (acc : Nat) :
    s.foldl (fun acc b => 2 * acc + b.toNat) acc = acc * 2 ^ s.length + num s := by
  unfold num
  induction s generalizing acc with
  | nil => simp
  | cons b s ih =>
    rw [List.foldl_cons, List.foldl_cons, ih, ih (2 * 0 + b.toNat), List.length_cons, Nat.pow_succ]
    ring

@[simp] theorem num_nil : num [] = 0 := rfl

theorem num_cons (b : Bool) (s : BitString) : num (b :: s) = b.toNat * 2 ^ s.length + num s := by
  rw [num, List.foldl_cons, num_foldl]
  simp

/-- The number of a concatenation. -/
theorem num_append (s t : BitString) : num (s ++ t) = num s * 2 ^ t.length + num t := by
  rw [num, List.foldl_append, num_foldl]
  rfl

theorem num_lt (s : BitString) : num s < 2 ^ s.length := by
  induction s with
  | nil => simp
  | cons b s ih =>
    rw [num_cons, List.length_cons, Nat.pow_succ]
    have : b.toNat ≤ 1 := Bool.toNat_le b
    nlinarith

@[simp] theorem zeros_length (n : Nat) : (zeros n).length = n := List.length_replicate

@[simp] theorem num_zeros (n : Nat) : num (zeros n) = 0 := by
  induction n with
  | zero => rfl
  | succ n ih => rw [zeros, List.replicate_succ, num_cons, ← zeros, ih]; simp

/-- A bit string is its number and its length. -/
theorem eq_of_num_eq {s t : BitString} (hl : s.length = t.length) (hn : num s = num t) : s = t := by
  induction s generalizing t with
  | nil => exact (List.length_eq_zero_iff.1 hl.symm).symm
  | cons b s ih =>
    cases t with
    | nil => cases hl
    | cons c t =>
      have hl' : s.length = t.length := by simpa using hl
      rw [num_cons, num_cons, hl'] at hn
      have h₁ := num_lt s
      have h₂ := num_lt t
      rw [hl'] at h₁
      have hbc : b = c := by
        cases b <;> cases c <;> simp at hn <;> first | rfl | omega
      subst hbc
      rw [ih hl' (by omega)]

/-! ### `spell` and `bin` -/

@[simp] theorem spell_length (n v : Nat) : (spell n v).length = n := by
  induction n with
  | zero => rfl
  | succ n ih => rw [spell, List.length_cons, ih]

/-- The low bits of a number spell it modulo a power of two. -/
theorem num_spell (n v : Nat) : num (spell n v) = v % 2 ^ n := by
  induction n with
  | zero => simp [spell, Nat.mod_one]
  | succ n ih => rw [spell, num_cons, spell_length, ih, Nat.mod_pow_succ, Nat.toNat_testBit]; ring

theorem num_spell_of_lt {n v : Nat} (h : v < 2 ^ n) : num (spell n v) = v := by
  rw [num_spell, Nat.mod_eq_of_lt h]

theorem spell_num (s : BitString) : spell s.length (num s) = s :=
  eq_of_num_eq (by simp) (num_spell_of_lt (num_lt s))

@[simp] theorem spell_zero_value (n : Nat) : spell n 0 = zeros n :=
  eq_of_num_eq (by simp) (by rw [num_spell, num_zeros, Nat.zero_mod])

theorem bitlen_pos (v : Nat) : 1 ≤ bitlen v := by
  unfold bitlen
  split <;> omega

theorem lt_two_pow_bitlen (v : Nat) : v < 2 ^ bitlen v := by
  unfold bitlen
  split
  · simp [*]
  · exact Nat.lt_log2_self

/-- R102: for `w >= 1`, `bitlen(v) > w` is the same as `v >= 2^w`. -/
theorem bitlen_le_iff {v w : Nat} (hw : 1 ≤ w) : bitlen v ≤ w ↔ v < 2 ^ w := by
  unfold bitlen
  split
  · rename_i h
    simp [h, hw]
  · rename_i h
    exact Nat.log2_lt h

@[simp] theorem bin_length (v : Nat) : (bin v).length = bitlen v := spell_length _ _

@[simp] theorem num_bin (v : Nat) : num (bin v) = v := num_spell_of_lt (lt_two_pow_bitlen v)

/-! ### Pieces, bytes and words -/

@[simp] theorem pieces_length (k m : Nat) (s : BitString) : (pieces k m s).length = m := by
  induction m generalizing s with
  | zero => rfl
  | succ m ih => rw [pieces, List.length_cons, ih]

/-- Cutting one piece off the front. -/
theorem pieces_append {k : Nat} {p : BitString} (hp : p.length = k) (m : Nat) (s : BitString) :
    pieces k (m + 1) (p ++ s) = p :: pieces k m s := by
  rw [pieces, List.take_left' hp, List.drop_left' hp]

/-- Cutting pieces off two strings one after the other. -/
theorem pieces_append_pieces {k m : Nat} {s : BitString} (hs : s.length = k * m) (n : Nat) (t : BitString) :
    pieces k (m + n) (s ++ t) = pieces k m s ++ pieces k n t := by
  induction m generalizing s with
  | zero =>
    have : s = [] := List.length_eq_zero_iff.1 (by simpa using hs)
    simp [this, pieces]
  | succ m ih =>
    have hk : k ≤ s.length := by rw [hs]; exact Nat.le_mul_of_pos_right k (by omega)
    rw [show m + 1 + n = (m + n) + 1 by omega, pieces, pieces, List.take_append_of_le_length hk,
      List.drop_append_of_le_length hk, ih (by rw [List.length_drop, hs, Nat.mul_succ]; omega), List.cons_append]

@[simp] theorem bytesOf_length (s : BitString) : (bytesOf s).length = s.length / 8 := by simp [bytesOf]

@[simp] theorem wordsOf_length (s : BitString) : (wordsOf s).length = s.length / 16 := by simp [wordsOf]

theorem bytesOf_append {s : BitString} (hs : s.length % 8 = 0) (t : BitString) :
    bytesOf (s ++ t) = bytesOf s ++ bytesOf t := by
  unfold bytesOf
  rw [List.length_append, show (s.length + t.length) / 8 = s.length / 8 + t.length / 8 by omega,
    pieces_append_pieces (by omega), List.map_append]

theorem wordsOf_append {s : BitString} (hs : s.length % 16 = 0) (t : BitString) :
    wordsOf (s ++ t) = wordsOf s ++ wordsOf t := by
  unfold wordsOf
  rw [List.length_append, show (s.length + t.length) / 16 = s.length / 16 + t.length / 16 by omega,
    pieces_append_pieces (by omega), List.map_append]

theorem bytesOf_byte {p : BitString} (hp : p.length = 8) : bytesOf p = [BitVec.ofNat 8 (num p)] := by
  simp [bytesOf, hp, pieces, List.take_of_length_le]

theorem wordsOf_word {p : BitString} (hp : p.length = 16) : wordsOf p = [num p] := by
  simp [wordsOf, hp, pieces, List.take_of_length_le]

@[simp] theorem bitsOf_nil : bitsOf [] = [] := rfl

theorem bitsOf_cons (b : Byte) (bs : List Byte) : bitsOf (b :: bs) = spell 8 b.toNat ++ bitsOf bs := rfl

theorem bitsOf_append (bs cs : List Byte) : bitsOf (bs ++ cs) = bitsOf bs ++ bitsOf cs := List.flatMap_append

@[simp] theorem bitsOf_length (bs : List Byte) : (bitsOf bs).length = 8 * bs.length := by
  induction bs with
  | nil => rfl
  | cons b bs ih => rw [bitsOf_cons, List.length_append, ih, spell_length, List.length_cons]; omega

/-- R9: `bytes_of` undoes `bits_of`. -/
@[simp] theorem bytesOf_bitsOf (bs : List Byte) : bytesOf (bitsOf bs) = bs := by
  induction bs with
  | nil => rfl
  | cons b bs ih =>
    rw [bitsOf_cons, bytesOf_append (by simp), ih, bytesOf_byte (by simp), num_spell_of_lt b.isLt]
    simp

theorem wordsOf_le {s : BitString} {w : Nat} (h : w ∈ wordsOf s) : w ≤ 0xFFFF := by
  unfold wordsOf at h
  generalize s.length / 16 = m at h
  induction m generalizing s with
  | zero => simp [pieces] at h
  | succ m ih =>
    rw [pieces, List.map_cons, List.mem_cons] at h
    rcases h with rfl | h
    · have h₁ := num_lt (s.take 16)
      have h₂ : 2 ^ (s.take 16).length ≤ 2 ^ 16 :=
        Nat.pow_le_pow_right (by omega) (by rw [List.length_take]; omega)
      omega
    · exact ih h

/-- R51: the word of two bytes, high byte first. -/
theorem wordsOf_two_bytes (b c : Byte) (bs : List Byte) :
    wordsOf (bitsOf (b :: c :: bs)) = (b.toNat * 256 + c.toNat) :: wordsOf (bitsOf bs) := by
  rw [bitsOf_cons, bitsOf_cons, ← List.append_assoc, wordsOf_append (by simp), wordsOf_word (by simp), num_append,
    num_spell_of_lt b.isLt, num_spell_of_lt c.isLt, spell_length]
  rfl

end Sys2Proof.Machine
end

