-- ==== Sys2Proof/Laws/BitField.lean ====
section
/-! SUPPORT. Laws of the bit-field packer: what `enc` gives for each width and padding, and what a list of header
fields gives or reports. -/

namespace Sys2Proof.Machine

/-! ### `enc` (R101) -/

theorem enc_zero_width (v : Nat) (pr : Bool) : enc v 0 pr = some (bin v) := rfl

/-- Left padding: the value in `w` bits. -/
theorem enc_left {v w : Nat} (hw : 1 ≤ w) (h : v < 2 ^ w) : enc v w false = some (spell w v) := by
  have hb := (bitlen_le_iff hw).2 h
  unfold enc
  rw [if_neg (by omega), if_neg (by simpa using hb), if_neg (by simp)]
  congr 1
  refine eq_of_num_eq (by simp; omega) ?_
  rw [num_append, num_zeros, num_bin, num_spell_of_lt h]
  omega

/-- Right padding: the value shifted up so that its first bit is the first of the `w` (R104). -/
theorem enc_right {v w : Nat} (hw : 1 ≤ w) (h : v < 2 ^ w) :
    enc v w true = some (bin v ++ zeros (w - bitlen v)) := by
  have hb := (bitlen_le_iff hw).2 h
  unfold enc
  rw [if_neg (by omega), if_neg (by simpa using hb), if_pos rfl, bin_length]

/-- A value that is too long for a width (R102). -/
theorem enc_too_long {v w : Nat} (hw : 1 ≤ w) (h : 2 ^ w ≤ v) (pr : Bool) : enc v w pr = none := by
  have hb : ¬ bitlen v ≤ w := fun hle => absurd ((bitlen_le_iff hw).1 hle) (by omega)
  unfold enc
  rw [if_neg (by omega), if_pos (by rw [bin_length]; omega)]

/-! ### Header fields (R107) -/

/-- A field that does not overflow. -/
def HeaderField.Fits (f : HeaderField) : Prop := f.width = 0 ∨ f.value < 2 ^ f.width

/-- How many bits a field that fits takes. -/
def HeaderField.bitCount (f : HeaderField) : Nat := if f.width = 0 then bitlen f.value else f.width

/-- The bits of a field that fits. -/
def HeaderField.image (f : HeaderField) : BitString := spell f.bitCount f.value

@[simp] theorem HeaderField.image_length (f : HeaderField) : f.image.length = f.bitCount := spell_length _ _

theorem HeaderField.num_image {f : HeaderField} (h : f.Fits) : num f.image = f.value := by
  unfold HeaderField.image HeaderField.bitCount
  split
  · exact num_spell_of_lt (lt_two_pow_bitlen _)
  · rename_i hw
    exact num_spell_of_lt (h.resolve_left hw)

theorem HeaderField.bits_of_fits {f : HeaderField} (h : f.Fits) : f.bits = .ok f.image := by
  unfold HeaderField.bits HeaderField.image HeaderField.bitCount
  by_cases hw : f.width = 0
  · rw [if_pos hw, hw, enc_zero_width, bin]
  · rw [if_neg hw, enc_left (by omega) (h.resolve_left hw)]

theorem HeaderField.bits_of_not_fits {f : HeaderField} (h : ¬ f.Fits) : f.bits = .error (.overflow f.id) := by
  unfold HeaderField.Fits at h
  unfold HeaderField.bits
  rw [enc_too_long (by omega) (by omega)]

/-- All fields fit: their bits one after the other. -/
theorem encFields_of_fits {fs : List HeaderField} (h : ∀ f ∈ fs, f.Fits) :
    encFields fs = .ok (fs.flatMap HeaderField.image) := by
  induction fs with
  | nil => rfl
  | cons f fs ih =>
    rw [encFields, HeaderField.bits_of_fits (h f (by simp)), ih (fun g hg => h g (by simp [hg]))]
    rfl

/-- The first field that does not fit is the one reported. -/
theorem encFields_first_overflow {pre post : List HeaderField} {f : HeaderField} (h : ∀ g ∈ pre, g.Fits)
    (hf : ¬ f.Fits) : encFields (pre ++ f :: post) = .error (.overflow f.id) := by
  induction pre with
  | nil => rw [List.nil_append, encFields, HeaderField.bits_of_not_fits hf]
  | cons g pre ih =>
    rw [List.cons_append, encFields, HeaderField.bits_of_fits (h g (by simp)), ih (fun g' hg => h g' (by simp [hg]))]

/-- Either every field fits, or the report is the overflow of a field that does not. -/
theorem encFields_cases (fs : List HeaderField) :
    ((∀ f ∈ fs, f.Fits) ∧ encFields fs = .ok (fs.flatMap HeaderField.image)) ∨
    ∃ f ∈ fs, ¬ f.Fits ∧ encFields fs = .error (.overflow f.id) := by
  induction fs with
  | nil => exact .inl ⟨by simp, rfl⟩
  | cons f fs ih =>
    by_cases hf : f.Fits
    · rcases ih with ⟨h, e⟩ | ⟨g, hg, hn, e⟩
      · refine .inl ⟨fun g hg => ?_, ?_⟩
        · rcases List.mem_cons.1 hg with rfl | hg
          · exact hf
          · exact h g hg
        · rw [encFields, HeaderField.bits_of_fits hf, e]
          rfl
      · refine .inr ⟨g, by simp [hg], hn, ?_⟩
        rw [encFields, HeaderField.bits_of_fits hf, e]
    · exact .inr ⟨f, by simp, hf, by rw [encFields, HeaderField.bits_of_not_fits hf]⟩

/-- The length of the fields' bits. -/
theorem fields_length (fs : List HeaderField) :
    (fs.flatMap HeaderField.image).length = (fs.map HeaderField.bitCount).sum := by
  induction fs with
  | nil => rfl
  | cons f fs ih => simp [List.flatMap_cons, ih]

/-- Fields that give bits all fit, and the bits are theirs. -/
theorem encFields_ok {fs : List HeaderField} {b : BitString} (h : encFields fs = .ok b) :
    (∀ f ∈ fs, f.Fits) ∧ b = fs.flatMap HeaderField.image := by
  rcases encFields_cases fs with ⟨hf, e⟩ | ⟨f, -, -, e⟩
  · rw [e] at h
    exact ⟨hf, (Except.ok.inj h).symm⟩
  · rw [e] at h
    cases h

/-- An error of fields is the overflow of one that does not fit. -/
theorem encFields_error {fs : List HeaderField} {e : Error} (h : encFields fs = .error e) :
    ∃ f ∈ fs, ¬ f.Fits ∧ e = .overflow f.id := by
  rcases encFields_cases fs with ⟨-, e'⟩ | ⟨f, hf, hn, e'⟩
  · rw [e'] at h
    cases h
  · rw [e'] at h
    exact ⟨f, hf, hn, (Except.error.inj h).symm⟩

end Sys2Proof.Machine
end

