-- ==== Sys2Proof/Laws/Checksum.lean ====
section
/-! SUPPORT. Laws of the checksum engine: the fold by congruence (R123), and `cks` over whole words. -/

namespace Sys2Proof.Machine

theorem foldedSum_le (n : Nat) : foldedSum n ≤ 65535 := by
  unfold foldedSum
  split <;> omega

theorem foldedSum_of_le {n : Nat} (h : n ≤ 65535) : foldedSum n = n := by
  unfold foldedSum
  split <;> omega

/-- One pass of the loop keeps the folded sum. -/
theorem foldedSum_pass {n : Nat} (h : 65535 < n) : foldedSum (n % 65536 + n / 65536) = foldedSum n := by
  unfold foldedSum
  rw [if_neg (by omega), if_neg (by omega)]
  omega

/-- With enough passes allowed, the loop of R120 reaches the folded sum. -/
theorem fold_eq_foldedSum {fuel n : Nat} (h : n ≤ fuel) : fold fuel n = foldedSum n := by
  induction fuel generalizing n with
  | zero =>
    have : n = 0 := by omega
    subst this
    rfl
  | succ fuel ih =>
    unfold fold
    split
    · rename_i hbig
      rw [ih (by omega), foldedSum_pass hbig]
    · exact (foldedSum_of_le (by omega)).symm

theorem wordSum_eq_sum (ws : List Nat) : wordSum ws = ws.sum := List.sum_eq_foldl.symm

/-- The checksum is the complement of the folded sum. -/
theorem checksumOf_eq (ws : List Nat) : checksumOf ws = refChecksum ws.sum := by
  rw [checksumOf, wordSum_eq_sum, fold_eq_foldedSum (Nat.le_refl _)]
  rfl

theorem refChecksum_le (n : Nat) : refChecksum n ≤ 65535 := Nat.sub_le _ _

/-- `cks` of a whole number of words (R120). -/
theorem cks_of_words {s : BitString} (h : s.length % 16 = 0) : cks s = .ok (refChecksum (wordsOf s).sum) := by
  rw [cks, if_pos h, checksumOf_eq]

/-- `cks` never pads (R122). -/
theorem cks_of_ragged {s : BitString} (h : s.length % 16 ≠ 0) : cks s = .error .checksumLength := by
  rw [cks, if_neg h]

/-- What `cks` answers is a 16-bit value. -/
theorem cks_le {s : BitString} {c : Nat} (h : cks s = .ok c) : c ≤ 65535 := by
  by_cases hl : s.length % 16 = 0
  · rw [cks_of_words hl] at h
    cases h
    exact refChecksum_le _
  · rw [cks_of_ragged hl] at h
    cases h

end Sys2Proof.Machine
end

