-- ==== Sys2Proof/Laws/Builders.lean ====
section
/-! SUPPORT. Laws of the two header builders: which errors they can report, and the length of what they build. -/

namespace Sys2Proof.Machine

/-! ### Operands -/

theorem toNat_low_two (s : State) : (s.rstat.extractLsb' 0 2).toNat = s.failMark := by
  simp [State.failMark, BitVec.extractLsb'_toNat]

/-- R204: the resolution check passes exactly when both marks are clear. -/
theorem resolved_of_clear {s : State} (h : s.failMark = 0) : s.resolved = .ok () := by
  rw [State.resolved, if_pos]
  exact BitVec.eq_of_toNat_eq (by rw [toNat_low_two, h]; rfl)

/-- R204: otherwise the report carries the two marks. -/
theorem resolved_of_failed {s : State} (h : s.failMark ≠ 0) :
    s.resolved = .error (.addressResolution (BitVec.ofNat 8 s.failMark)) := by
  rw [State.resolved, if_neg]
  · congr 2
    refine BitVec.eq_of_toNat_eq ?_
    rw [BitVec.toNat_setWidth, toNat_low_two]
    simp
  · intro h0
    apply h
    rw [← toNat_low_two, h0]
    rfl

theorem failMark_lt (s : State) : s.failMark < 4 := Nat.mod_lt _ (by omega)

/-- The payload read depends on PBUF and PLEN alone. -/
theorem payload_length {s : State} {pay : List Byte} (h : s.payload = .ok pay) : pay.length = s.plen.toNat :=
  Memory.readBlock_length h

/-! ### TCP (R141, R143) -/

theorem tcpFlags_lt (p : Place) : tcpFlags p < 2 ^ 9 := by cases p <;> decide

theorem word_lt (a : Word) : a.toNat < 2 ^ 32 := a.isLt

/-- A TCP field that does not fit is a port or the window (R202), given a checksum of 16 bits. -/
theorem tcpFields_overflow {s : State} {fl c : Nat} (hfl : fl < 2 ^ 9) (hc : c ≤ 65535) {f : HeaderField}
    (hf : f ∈ tcpFields s fl c) (h : ¬ f.Fits) : f.id = 0x10 ∨ f.id = 0x11 ∨ f.id = 0x17 := by
  have h1 := word_lt s.seq
  have h2 := word_lt s.ackn
  simp only [tcpFields, List.mem_cons, List.not_mem_nil, or_false] at hf
  rcases hf with rfl | rfl | rfl | rfl | rfl | rfl | rfl | rfl | rfl | rfl <;>
    simp only [HeaderField.Fits] at h <;> first | (simp; done) | (exfalso; omega)

/-- A pseudo-header field that does not fit is the segment length (R202). -/
theorem pseudoFields_overflow {s : State} {f : HeaderField} (hf : f ∈ pseudoFields s) (h : ¬ f.Fits) :
    f.id = 0x24 := by
  have h1 := word_lt s.srcaddr
  have h2 := word_lt s.dstaddr
  simp only [pseudoFields, List.mem_cons, List.not_mem_nil, or_false] at hf
  rcases hf with rfl | rfl | rfl | rfl | rfl <;>
    simp only [HeaderField.Fits] at h <;> first | (simp; done) | (exfalso; omega)

theorem tcpFields_bits (s : State) (fl c : Nat) : ((tcpFields s fl c).map HeaderField.bitCount).sum = 160 := by
  simp [tcpFields, HeaderField.bitCount]

theorem pseudoFields_bits (s : State) : ((pseudoFields s).map HeaderField.bitCount).sum = 96 := by
  simp [pseudoFields, HeaderField.bitCount]

/-- The TCP header image is 160 bits (R75). -/
theorem tcpImage_length {s : State} {fl c : Nat} {t : BitString} (h : tcpImage s fl c = .ok t) : t.length = 160 := by
  rw [(encFields_ok h).2, fields_length, tcpFields_bits]

/-- Pseudo-header and header together are 256 bits (R81). -/
theorem tcpPrepare_length {s : State} {p : Place} {b : BitString} (h : tcpPrepare p s = .ok b) : b.length = 256 := by
  unfold tcpPrepare at h
  split at h
  · cases h
  · rename_i t0 ht
    split at h
    · cases h
    · rename_i ps hps
      cases h
      rw [List.length_append, tcpImage_length ht, (encFields_ok hps).2, fields_length, pseudoFields_bits]

/-- R202: what the TCP builder can report. -/
theorem tcpPrepare_error {s : State} {p : Place} {e : Error} (h : tcpPrepare p s = .error e) :
    e = .overflow 0x10 ∨ e = .overflow 0x11 ∨ e = .overflow 0x17 ∨ e = .overflow 0x24 := by
  unfold tcpPrepare at h
  split at h
  · rename_i e' he
    cases h
    obtain ⟨f, hf, hn, rfl⟩ := encFields_error he
    rcases tcpFields_overflow (tcpFlags_lt p) (by omega) hf hn with h | h | h <;> simp [h]
  · split at h
    · rename_i e' he
      cases h
      obtain ⟨f, hf, hn, rfl⟩ := encFields_error he
      simp [pseudoFields_overflow hf hn]
    · cases h

/-- The checksum field holds any 16-bit value, so inserting it cannot fail (R143). -/
theorem tcpImage_insert {s : State} {fl c : Nat} (hfl : fl < 2 ^ 9) (hc : c ≤ 65535) {t0 : BitString}
    (h : tcpImage s fl 0 = .ok t0) : ∃ t, tcpImage s fl c = .ok t := by
  rcases encFields_cases (tcpFields s fl c) with ⟨-, e⟩ | ⟨f, hf, hn, -⟩
  · exact ⟨_, e⟩
  · exfalso
    have h0 := (encFields_ok h).1
    have hid := tcpFields_overflow hfl hc hf hn
    simp only [tcpFields, List.mem_cons, List.not_mem_nil, or_false] at hf
    have hmem : ∀ g ∈ tcpFields s fl 0, g.Fits := h0
    rcases hf with rfl | rfl | rfl | rfl | rfl | rfl | rfl | rfl | rfl | rfl <;>
      first | (simp only at hid; revert hid; decide) | (exact hn (hmem _ (by simp [tcpFields])))

/-- With the whole payload read, the TCP builder reports exactly what it reports before the read; without a report it
builds 160 bits. The checksum input is always a whole number of words (R122). -/
theorem tcpBuild_spec {s : State} {p : Place} {pay : List Byte} (hpay : pay.length = s.plen.toNat) :
    (∃ e, tcpPrepare p s = .error e ∧ tcpBuild p s pay = .error e) ∨
    ∃ front t, tcpPrepare p s = .ok front ∧ tcpBuild p s pay = .ok t ∧ t.length = 160 ∧
      tcpImage s (tcpFlags p) (refChecksum (wordsOf (front ++ bitsOf pay ++ tcpPad s)).sum) = .ok t := by
  unfold tcpBuild
  cases hprep : tcpPrepare p s with
  | error e => exact .inl ⟨e, rfl, rfl⟩
  | ok front =>
    right
    have hlen : (front ++ bitsOf pay ++ tcpPad s).length % 16 = 0 := by
      have := tcpPrepare_length hprep
      unfold tcpPad
      split <;> simp only [List.length_append, bitsOf_length, zeros_length, List.length_nil] <;> omega
    obtain ⟨t, ht⟩ : ∃ t, tcpImage s (tcpFlags p)
        (refChecksum (wordsOf (front ++ bitsOf pay ++ tcpPad s)).sum) = .ok t := by
      unfold tcpPrepare at hprep
      split at hprep
      · cases hprep
      · rename_i t0 ht0
        exact tcpImage_insert (tcpFlags_lt p) (refChecksum_le _) ht0
    refine ⟨front, t, rfl, ?_, tcpImage_length ht, ht⟩
    simp only [cks_of_words hlen, ht]

/-! ### IPv4 (R161, R164) -/

theorem ipFields_id {s : State} {total c : Nat} {f : HeaderField} (hf : f ∈ ipFields s total c) :
    f.id.toNat ≤ 0x0C := by
  simp only [ipFields, List.mem_cons, List.not_mem_nil, or_false] at hf
  rcases hf with rfl | rfl | rfl | rfl | rfl | rfl | rfl | rfl | rfl | rfl | rfl | rfl | rfl <;> simp

theorem bitCount_ge (f : HeaderField) : f.width ≤ f.bitCount := by
  unfold HeaderField.bitCount
  split
  · omega
  · exact Nat.le_refl _

theorem bitCount_eq_of {f : HeaderField} (h : f.bitCount ≤ f.width) : f.width ≠ 0 := by
  intro h0
  unfold HeaderField.bitCount at h
  rw [if_pos h0] at h
  have := bitlen_pos f.value
  omega

/-- If the fields take no more bits than their widths add to, no width is 0. -/
theorem no_zero_width {fs : List HeaderField}
    (h : (fs.map HeaderField.bitCount).sum ≤ (fs.map HeaderField.width).sum) : ∀ f ∈ fs, f.width ≠ 0 := by
  induction fs with
  | nil => simp
  | cons f fs ih =>
    simp only [List.map_cons, List.sum_cons] at h
    have h₁ := bitCount_ge f
    have h₂ : (fs.map HeaderField.width).sum ≤ (fs.map HeaderField.bitCount).sum :=
      List.sum_le_sum (fun g _ => bitCount_ge g)
    intro g hg
    rcases List.mem_cons.1 hg with rfl | hg
    · exact bitCount_eq_of (by omega)
    · exact ih (by omega) g hg

/-- Fields of widths of 1 or more take exactly their widths. -/
theorem bits_of_nonzero_widths {fs : List HeaderField} (h : ∀ f ∈ fs, f.width ≠ 0) :
    (fs.map HeaderField.bitCount).sum = (fs.map HeaderField.width).sum := by
  congr 1
  refine List.map_congr_left (fun f hf => ?_)
  rw [HeaderField.bitCount, if_neg (h f hf)]

theorem ipFields_widths (s : State) (total c : Nat) : ((ipFields s total c).map HeaderField.width).sum = s.cfg.ipw.sum := by
  simp only [ipFields, List.map_cons, List.map_nil, List.sum_cons, List.sum_nil, IpWidths.sum]
  omega

/-- The widths do not depend on the field values. -/
theorem ipFields_map_width (s : State) (total c c' : Nat) :
    (ipFields s total c).map HeaderField.width = (ipFields s total c').map HeaderField.width := rfl

/-- What `ip_build` builds is 160 bits: the image with the checksum of the image with checksum 0. -/
theorem ipBuild_ok {s : State} {h : BitString} (hb : ipBuild s = .ok h) :
    totalLength s ≤ 65535 ∧ s.cfg.ipw.sum = 160 ∧ h.length = 160 ∧ (∀ f ∈ ipFields s (totalLength s) 0, f.width ≠ 0) ∧
      ∃ h0, ipImage s (totalLength s) 0 = .ok h0 ∧ h0.length = 160 ∧
        ipImage s (totalLength s) (refChecksum (wordsOf h0).sum) = .ok h := by
  unfold ipBuild at hb
  split at hb
  · cases hb
  · rename_i htot
    split at hb
    · cases hb
    · rename_i h0 h0eq
      split at hb
      · rename_i hlen
        have hw : ∀ f ∈ ipFields s (totalLength s) 0, f.width ≠ 0 := by
          refine no_zero_width ?_
          rw [← fields_length, ← (encFields_ok h0eq).2, ipFields_widths]
          omega
        rw [cks_of_words (by omega)] at hb
        have hb' : ipImage s (totalLength s) (refChecksum (wordsOf h0).sum) = .ok h := hb
        refine ⟨by omega, hlen.2, ?_, hw, h0, h0eq, hlen.1, hb'⟩
        rw [(encFields_ok hb').2, fields_length, bits_of_nonzero_widths, ipFields_widths, hlen.2]
        intro f hf h0'
        have hmem : f.width ∈ (ipFields s (totalLength s) 0).map HeaderField.width := by
          rw [ipFields_map_width s _ 0 (refChecksum (wordsOf h0).sum)]
          exact List.mem_map_of_mem hf
        obtain ⟨g, hg, hgw⟩ := List.mem_map.1 hmem
        exact hw g hg (by omega)
      · cases hb

/-- R202, R203: what `ip_build` can report. -/
theorem ipBuild_error {s : State} {e : Error} (h : ipBuild s = .error e) :
    (∃ f : Byte, f.toNat ≤ 0x0C ∧ e = .overflow f) ∨ e = .headerLength := by
  unfold ipBuild at h
  split at h
  · cases h
    exact .inl ⟨0x04, by decide, rfl⟩
  · split at h
    · rename_i e' he
      cases h
      obtain ⟨f, hf, -, rfl⟩ := encFields_error he
      exact .inl ⟨f.id, ipFields_id hf, rfl⟩
    · rename_i h0 h0eq
      split at h
      · rename_i hlen
        rw [cks_of_words (by omega)] at h
        obtain ⟨f, hf, -, rfl⟩ := encFields_error (show ipImage _ _ _ = _ from h)
        exact .inl ⟨f.id, ipFields_id hf, rfl⟩
      · cases h
        exact .inr rfl

end Sys2Proof.Machine
end

