-- ==== Sys2Proof/Laws/Commands.lean ====
section
/-! SUPPORT. What a command can do, said once: every outcome of `exec` is the settling of one result, or the stop at an
unwritten byte; and every result is a legal error, a number, or output bytes of a known count. -/

namespace Sys2Proof.Machine

/-! ### One equation for all five commands -/

/-- What a command that reads PBUF makes of its input: the result over the bytes, or the report of a check, or the index
of the unwritten byte it stops at. -/
def inputResult {α : Type} (input : Except Nat (List Byte)) (checks : Except Error α)
    (build : List Byte → Except Error Result) : Except Nat (Except Error Result) :=
  match input with
  | .ok bs => .ok (build bs)
  | .error k =>
    match checks with
    | .error e => .ok (.error e)
    | .ok _ => .error k

/-- What a command makes of a state: a result to settle, or the index of the unwritten byte it stops at. -/
def commandResult (i : Instr) (s : State) : Except Nat (Except Error Result) :=
  match i with
  | .encode pr w => .ok (encodeResult pr w s)
  | .csum => inputResult s.csumInput (csumChecks s) (csumResult s)
  | .tcphdr p => inputResult s.payload (tcphdrChecks p s) (tcphdrResult p s)
  | .iphdr => .ok (iphdrResult s)
  | .assemble p => inputResult s.payload (assembleChecks p s) (assembleResult p s)

/-- How an outcome follows from it. -/
def settleOutcome (s : State) : Except Nat (Except Error Result) → Outcome
  | .ok r => .next (s.settle r)
  | .error k => .fault (.unwrittenPayload k)

theorem withInput_eq {α : Type} (s : State) (input : Except Nat (List Byte)) (checks : Except Error α)
    (build : List Byte → Except Error Result) :
    s.withInput input checks build = settleOutcome s (inputResult input checks build) := by
  unfold State.withInput inputResult
  cases input with
  | ok bs => rfl
  | error k => cases checks <;> rfl

/-- The three ways the reading of an input ends. -/
theorem inputResult_cases {α : Type} {input : Except Nat (List Byte)} {checks : Except Error α}
    {build : List Byte → Except Error Result} {r : Except Error Result} (h : inputResult input checks build = .ok r) :
    (∃ bs, input = .ok bs ∧ r = build bs) ∨ ∃ k e, input = .error k ∧ checks = .error e ∧ r = .error e := by
  unfold inputResult at h
  cases input with
  | ok bs => exact .inl ⟨bs, rfl, (Except.ok.inj h).symm⟩
  | error k =>
    cases checks with
    | error e => exact .inr ⟨k, e, rfl, rfl, (Except.ok.inj h).symm⟩
    | ok u => cases h

/-- Every command is the settling of its result. -/
theorem exec_eq (i : Instr) (s : State) : exec i s = settleOutcome s (commandResult i s) := by
  cases i with
  | encode pr w => rfl
  | csum => exact withInput_eq s s.csumInput (csumChecks s) (csumResult s)
  | tcphdr p => exact withInput_eq s s.payload (tcphdrChecks p s) (tcphdrResult p s)
  | iphdr => rfl
  | assemble p => exact withInput_eq s s.payload (assembleChecks p s) (assembleResult p s)

/-- A next state is the settling of the command's result. -/
theorem exec_next_iff (i : Instr) (s s' : State) :
    exec i s = .next s' ↔ ∃ r, commandResult i s = .ok r ∧ s' = s.settle r := by
  rw [exec_eq]
  cases commandResult i s with
  | ok r => simp [settleOutcome, eq_comm]
  | error k => simp [settleOutcome]

/-- No command is refused. -/
theorem exec_not_refused (i : Instr) (s : State) (r : Refusal) : exec i s ≠ .refused r := by
  rw [exec_eq]
  cases commandResult i s <;> simp [settleOutcome]

/-- A command's result does not depend on CMD, the result registers, OBUF or the host's side of the port (R55, R30). -/
theorem commandResult_congr (i : Instr) (s t : State)
    (h : t = { s with
      cmd := t.cmd, status := t.status, res := t.res, rlen := t.rlen, olen := t.olen, obuf := t.obuf,
      pending := t.pending, answer := t.answer }) : commandResult i t = commandResult i s := by
  rw [h]
  cases i <;> rfl

/-! ### The errors a command can report (R200 to R206) -/

/-- R202: OverflowErrors of the TCP builder are legal reports. -/
theorem tcpError_legal {e : Error}
    (h : e = .overflow 0x10 ∨ e = .overflow 0x11 ∨ e = .overflow 0x17 ∨ e = .overflow 0x24) : e.Legal := by
  rcases h with rfl | rfl | rfl | rfl <;> simp [Error.Legal]

theorem ipError_legal {e : Error} (h : (∃ f : Byte, f.toNat ≤ 0x0C ∧ e = .overflow f) ∨ e = .headerLength) :
    e.Legal := by
  rcases h with ⟨f, hf, rfl⟩ | rfl
  · exact .inl hf
  · trivial

theorem resolved_error {s : State} {e : Error} (h : s.resolved = .error e) :
    s.failMark ≠ 0 ∧ e = .addressResolution (BitVec.ofNat 8 s.failMark) := by
  by_cases h0 : s.failMark = 0
  · rw [resolved_of_clear h0] at h
    cases h
  · rw [resolved_of_failed h0] at h
    exact ⟨h0, (Except.error.inj h).symm⟩

theorem resolvedError_legal {s : State} {e : Error} (h : s.resolved = .error e) : e.Legal := by
  obtain ⟨h0, rfl⟩ := resolved_error h
  have := failMark_lt s
  simp only [Error.Legal, BitVec.toNat_ofNat]
  omega

theorem csumChecks_error {s : State} {e : Error} (h : csumChecks s = .error e) :
    e = .illegalCommand 5 ∨ e = .checksumLength := by
  unfold csumChecks at h
  split at h
  · exact .inl (Except.error.inj h).symm
  · split at h
    · exact .inr (Except.error.inj h).symm
    · cases h

/-! ### The result of each command -/

/-- R140, R160, R180: how many bytes a command that builds output leaves in OBUF. -/
def outputCount (i : Instr) (s : State) : Nat :=
  match i with
  | .encode _ _ => 0
  | .csum => 0
  | .tcphdr _ => 20
  | .iphdr => 20
  | .assemble _ => 40 + s.plen.toNat

/-- What a result of the command `i` can be. -/
inductive ResultOf (i : Instr) (s : State) : Except Error Result → Prop where
  | error (e : Error) (h : e.Legal) : ResultOf i s (.error e)
  | number (res rlen : Nat) (hi : i = .csum ∨ ∃ pr w, i = .encode pr w) (hlen : rlen ≤ 32) (hres : res < 2 ^ rlen) :
      ResultOf i s (.ok (.number res rlen))
  | output (bs : List Byte) (hi : i ≠ .csum ∧ ∀ pr w, i ≠ .encode pr w) (hlen : bs.length = outputCount i s)
      (hmax : bs.length ≤ 65535) : ResultOf i s (.ok (.output bs))

theorem enc_length {v w : Nat} {pr : Bool} {b : BitString} (h : enc v w pr = some b) :
    b.length = if w = 0 then bitlen v else w := by
  unfold enc at h
  split at h
  · rename_i hw
    cases h
    simp [hw]
  · rename_i hw
    rw [if_neg hw]
    split at h
    · cases h
    · rename_i hlt
      rw [bin_length] at hlt
      split at h <;> cases h <;> simp <;> omega

theorem encodeResult_spec (pr : Bool) (w : Nat) (s : State) : ResultOf (.encode pr w) s (encodeResult pr w s) := by
  unfold encodeResult
  split
  · exact .error _ (by simp [Error.Legal])
  · rename_i hw
    cases h : enc s.val.toNat w pr with
    | none => exact .error _ (by simp [Error.Legal])
    | some b =>
      refine .number _ _ (.inr ⟨pr, w, rfl⟩) ?_ (num_lt b)
      rw [enc_length h]
      split
      · exact (bitlen_le_iff (by omega)).2 s.val.isLt
      · exact Nat.not_lt.1 hw

theorem csumResult_spec (s : State) (bs : List Byte) : ResultOf .csum s (csumResult s bs) := by
  unfold csumResult
  cases hc : csumChecks s with
  | error e =>
    refine .error _ ?_
    rcases csumChecks_error hc with rfl | rfl <;> simp [Error.Legal]
  | ok u =>
    simp only
    cases hk : cks (bitsOf bs) with
    | error e =>
      refine .error _ ?_
      unfold cks at hk
      split at hk <;> cases hk
      trivial
    | ok c => exact .number _ _ (.inl rfl) (by omega) (by have := cks_le hk; omega)

theorem tcphdrResult_spec {p : Place} {s : State} {pay : List Byte} (hpay : pay.length = s.plen.toNat) :
    ResultOf (.tcphdr p) s (tcphdrResult p s pay) := by
  unfold tcphdrResult
  cases hr : s.resolved with
  | error e => exact .error _ (resolvedError_legal hr)
  | ok u =>
    rcases tcpBuild_spec (p := p) hpay with ⟨e, hp, hb⟩ | ⟨front, t, -, hb, hl, -⟩
    · simp only [hb]
      exact .error _ (tcpError_legal (tcpPrepare_error hp))
    · simp only [hb]
      refine .output _ ⟨by simp, by simp⟩ ?_ ?_ <;> simp [hl, outputCount]

theorem iphdrResult_spec (s : State) : ResultOf .iphdr s (iphdrResult s) := by
  unfold iphdrResult
  cases hr : s.resolved with
  | error e => exact .error _ (resolvedError_legal hr)
  | ok u =>
    cases hb : ipBuild s with
    | error e => exact .error _ (ipError_legal (ipBuild_error hb))
    | ok h =>
      have hl := (ipBuild_ok hb).2.2.1
      refine .output _ ⟨by simp, by simp⟩ ?_ ?_ <;> simp [hl, outputCount]

theorem assembleResult_spec {p : Place} {s : State} {pay : List Byte} (hpay : pay.length = s.plen.toNat) :
    ResultOf (.assemble p) s (assembleResult p s pay) := by
  unfold assembleResult
  cases hr : s.resolved with
  | error e => exact .error _ (resolvedError_legal hr)
  | ok u =>
    cases hb : ipBuild s with
    | error e => exact .error _ (ipError_legal (ipBuild_error hb))
    | ok h =>
      have hl := (ipBuild_ok hb).2.2.1
      have htot := (ipBuild_ok hb).1
      rcases tcpBuild_spec (p := p) hpay with ⟨e, hp, hb⟩ | ⟨front, t, -, hb, hl', -⟩
      · simp only [hb]
        exact .error _ (tcpError_legal (tcpPrepare_error hp))
      · simp only [hb]
        unfold totalLength at htot
        refine .output _ ⟨by simp, by simp⟩ ?_ ?_ <;> simp [hl, hl', hpay, outputCount] <;> omega

theorem tcphdrChecks_error {p : Place} {s : State} {e : Error} (h : tcphdrChecks p s = .error e) : e.Legal := by
  unfold tcphdrChecks at h
  split at h
  · rename_i e' hr
    cases h
    exact resolvedError_legal hr
  · exact tcpError_legal (tcpPrepare_error h)

theorem assembleChecks_error {p : Place} {s : State} {e : Error} (h : assembleChecks p s = .error e) : e.Legal := by
  unfold assembleChecks at h
  split at h
  · rename_i e' hr
    cases h
    exact resolvedError_legal hr
  · split at h
    · rename_i e' hb
      cases h
      exact ipError_legal (ipBuild_error hb)
    · exact tcpError_legal (tcpPrepare_error h)

/-- Every result is a legal error, a number, or the command's count of output bytes. -/
theorem commandResult_spec {i : Instr} {s : State} {r : Except Error Result} (h : commandResult i s = .ok r) :
    ResultOf i s r := by
  cases i with
  | encode pr w =>
    cases h
    exact encodeResult_spec pr w s
  | csum =>
    rcases inputResult_cases h with ⟨bs, -, rfl⟩ | ⟨k, e, -, he, rfl⟩
    · exact csumResult_spec s bs
    · refine .error _ ?_
      rcases csumChecks_error he with rfl | rfl <;> simp [Error.Legal]
  | tcphdr p =>
    rcases inputResult_cases h with ⟨bs, hb, rfl⟩ | ⟨k, e, -, he, rfl⟩
    · exact tcphdrResult_spec (payload_length hb)
    · exact .error _ (tcphdrChecks_error he)
  | iphdr =>
    cases h
    exact iphdrResult_spec s
  | assemble p =>
    rcases inputResult_cases h with ⟨bs, hb, rfl⟩ | ⟨k, e, -, he, rfl⟩
    · exact assembleResult_spec (payload_length hb)
    · exact .error _ (assembleChecks_error he)

/-! ### STATUS (R26, R211) -/

theorem Error.code_range (e : Error) : 1 ≤ e.code ∧ e.code ≤ 5 := by cases e <;> simp [Error.code]

theorem statusError_toNat (e : Error) : (statusError e).toNat = 2 + 16 * e.code + 256 * e.field.toNat := by
  have h₁ := e.code_range
  have h₂ := e.field.isLt
  rw [statusError, BitVec.toNat_ofNat, Nat.mod_eq_of_lt]
  omega

@[simp] theorem statusDone_toNat : statusDone.toNat = 1 := rfl

theorem statusError_ne_done (e : Error) : statusError e ≠ statusDone := by
  intro h
  have := congrArg BitVec.toNat h
  rw [statusError_toNat, statusDone_toNat] at this
  omega

theorem statusError_ne_zero (e : Error) : statusError e ≠ 0 := by
  intro h
  have := congrArg BitVec.toNat h
  rw [statusError_toNat] at this
  simp at this

theorem State.done_iff (s : State) : s.done = true ↔ s.status.toNat % 2 = 1 := by
  simp [State.done, BitVec.getLsbD, Nat.testBit_zero]

theorem State.err_iff (s : State) : s.err = true ↔ s.status.toNat / 2 % 2 = 1 := by
  simp [State.err, BitVec.getLsbD, Nat.testBit_succ, Nat.testBit_zero]

/-- Of the two flags an error sets ERR alone. -/
theorem flags_of_error {s : State} {e : Error} (h : s.status = statusError e) : s.done = false ∧ s.err = true := by
  have h' := congrArg BitVec.toNat h
  rw [statusError_toNat] at h'
  refine ⟨?_, (State.err_iff s).2 (by omega)⟩
  rw [Bool.eq_false_iff]
  intro hd
  have := (State.done_iff s).1 hd
  omega

/-- Of the two flags a result sets DONE alone. -/
theorem flags_of_done {s : State} (h : s.status = statusDone) : s.done = true ∧ s.err = false := by
  simp [State.done, State.err, h, statusDone]

end Sys2Proof.Machine
end

