-- ==== Sys2Proof/Laws/PerInstr.lean ====
section
/-! SUPPORT. A family of statements about every instruction as syntax: the word of a well-formed instruction matches the
row of R72 that the instruction belongs to. -/

namespace Sys2Proof.Laws

/-- R72: "A word `c` spells the command of a row when `c AND mask = match`." -/
def EncodedRow.Statement (i : Instr) : Prop := WellFormed i = true → (rowOf i).spells (encode i) = true

theorem EncodedRow.encode (padRight : Bool) (width : Nat) : EncodedRow.Statement (.encode padRight width) := by
  intro h
  have hw : width < 33 := Nat.lt_succ_of_le (of_decide_eq_true h)
  have all : ∀ w < 33, ∀ pr : Bool,
      (rowOf (.encode pr w)).spells (Sys2Proof.encode (.encode pr w)) = true := by decide
  exact all width hw padRight

theorem EncodedRow.csum : EncodedRow.Statement .csum := fun _ => by decide

theorem EncodedRow.tcphdr (place : Place) : EncodedRow.Statement (.tcphdr place) := by
  cases place <;> exact fun _ => by decide

theorem EncodedRow.iphdr : EncodedRow.Statement .iphdr := fun _ => by decide

theorem EncodedRow.assemble (place : Place) : EncodedRow.Statement (.assemble place) := by
  cases place <;> exact fun _ => by decide

end Sys2Proof.Laws
end

