-- ==== Sys2Proof/Laws/Decode.lean ====
section
/-! SUPPORT. Laws of the decoder: the fields of a word as arithmetic on its number, and the two placements tables. -/

namespace Sys2Proof

theorem opField_eq (c : Word) : opField c = c.toNat % 16 := by simp [opField, BitVec.extractLsb'_toNat]

theorem placeField_eq (c : Word) : placeField c = c.toNat / 16 % 4 := by
  simp [placeField, BitVec.extractLsb'_toNat, Nat.shiftRight_eq_div_pow]

theorem widthField_eq (c : Word) : widthField c = c.toNat / 256 % 64 := by
  simp [widthField, BitVec.extractLsb'_toNat, Nat.shiftRight_eq_div_pow]

theorem padrField_eq (c : Word) : padrField c = (c.toNat / 64 % 2 == 1) := by
  rw [padrField, BitVec.getLsbD, Nat.testBit_eq_decide_div_mod_eq]
  rfl

/-- R82: the placement of a field and the field of a placement go together. -/
theorem placeOfField_eq_some_iff (n : Nat) (p : Place) : placeOfField n = some p ↔ n = fieldOfPlace p := by
  constructor
  · intro h
    unfold placeOfField at h
    split at h <;> first | (injection h with h; subst h; rfl) | cases h
  · rintro rfl
    cases p <;> rfl

/-- R73: `decode` refuses a word or gives an instruction whose `OP` is the word's. -/
theorem decode_ok_op {c : Word} {i : Instr} (h : decode c = .ok i) : 1 ≤ opField c ∧ opField c ≤ 5 := by
  unfold decode at h
  split at h <;> first | cases h | (rename_i e; omega)

/-- A decoded instruction is well formed (R72). -/
theorem decode_wellFormed {c : Word} {i : Instr} (h : decode c = .ok i) : WellFormed i = true := by
  unfold decode at h
  split at h
  · unfold decodeEncode at h
    split at h
    · split at h
      · rename_i hw
        cases h
        exact decide_eq_true hw
      · cases h
    · cases h
  · unfold decodePlain at h
    split at h <;> cases h
    rfl
  · unfold decodePlaced at h
    split at h
    · split at h <;> cases h
      rfl
    · cases h
  · unfold decodePlain at h
    split at h <;> cases h
    rfl
  · unfold decodePlaced at h
    split at h
    · split at h <;> cases h
      rfl
    · cases h
  · cases h

end Sys2Proof
end

