-- ==== Sys2Proof/Laws/Runs.lean ====
section
/-! SUPPORT. What a step can do, said once, and the induction over runs, packaged once. -/

namespace Sys2Proof.Machine

/-- The result of a CMD write: the report of an illegal word, or the decoded command's result (R25). -/
theorem runCommand_cases {c : Word} {s s' : State} (h : runCommand c s = .next s') :
    (∃ w, decode c = .error w ∧ s' = (s.beginCommand c).raise (.illegalCommand w.errfield)) ∨
    ∃ i r, decode c = .ok i ∧ commandResult i (s.beginCommand c) = .ok r ∧ ResultOf i (s.beginCommand c) r ∧
      s' = (s.beginCommand c).settle r := by
  unfold runCommand at h
  split at h
  · rename_i i hi
    obtain ⟨r, hr, rfl⟩ := (exec_next_iff _ _ _).1 h
    exact .inr ⟨i, r, hi, hr, commandResult_spec hr, rfl⟩
  · rename_i w hw
    cases h
    exact .inl ⟨w, hw, rfl⟩

theorem IllegalWord.errfield_legal (w : IllegalWord) : (Error.illegalCommand w.errfield).Legal := by
  cases w <;> simp [Error.Legal, IllegalWord.errfield]

/-- Everything an access can do: run a command, write an input, or leave the block as it was. -/
theorem perform_cases {a : HostAccess} {s s' : State} (h : perform a s = .next s') :
    (∃ c, a = .writeReg .cmd c ∧ runCommand c s = .next s') ∨
    (∃ r v, a = .writeReg r v ∧ r ≠ .cmd ∧ s' = s.writeReg r v) ∨
    (∃ i b, a = .writeBuf i b ∧ s' = s.writeBuf i.val b) ∨
    ∃ ans, s' = { s with answer := ans } := by
  cases a with
  | writeReg r v =>
    by_cases hr : r = .cmd
    · subst hr
      exact .inl ⟨v, rfl, h⟩
    · refine .inr (.inl ⟨r, v, rfl, hr, ?_⟩)
      cases r <;> first | exact absurd rfl hr | (cases h; rfl)
  | readReg r => cases h; exact .inr (.inr (.inr ⟨_, rfl⟩))
  | writeBuf i b => cases h; exact .inr (.inr (.inl ⟨i, b, rfl, rfl⟩))
  | readBuf i => cases h; exact .inr (.inr (.inr ⟨_, rfl⟩))
  | readOut i => cases h; exact .inr (.inr (.inr ⟨_, rfl⟩))

/-- Everything a step can do. -/
theorem step_cases {s s' : State} (h : step s = .next s') :
    s.pending = [] ∧ s' = s ∨
    ∃ e rest, s.pending = e :: rest ∧
      (e = .reset ∧ s' = (s.issue rest).applyReset ∨ ∃ a, e = .access a ∧ perform a (s.issue rest) = .next s') := by
  unfold step at h
  split at h
  · rename_i hp
    cases h
    exact .inl ⟨hp, rfl⟩
  · rename_i e rest hp
    refine .inr ⟨e, rest, hp, ?_⟩
    cases e with
    | access a => exact .inr ⟨a, rfl, h⟩
    | reset => cases h; exact .inl ⟨rfl, rfl⟩

/-- What every step of a machine keeps, a run of it keeps. -/
theorem run_keeps (M : Host.Core) {P : M.State → Prop} (hs : ∀ s s', P s → M.step s = .next s' → P s') (k : Nat)
    {s s' : M.State} (h : P s) (hrun : M.run k s = .next s') : P s' := by
  induction k generalizing s with
  | zero =>
    cases hrun
    exact h
  | succ k ih =>
    unfold Host.Core.run at hrun
    split at hrun
    · rename_i t ht
      exact ih (hs s t h ht) hrun
    · cases hrun
    · cases hrun

/-- What holds after reset and is kept by every step holds of every reachable state. -/
theorem reachable_induction {P : State → Prop}
    (h0 : ∀ (cfg : Config) (es : List HostEvent), P { State.resetWith cfg with pending := es })
    (hs : ∀ s s', P s → step s = .next s' → P s') {s : State} (h : s.Reachable) : P s := by
  obtain ⟨cfg, es, k, hrun⟩ := h
  exact run_keeps core hs k (h0 cfg es) hrun

end Sys2Proof.Machine
end

