-- ==== Sys2Proof/Tests/Slice0.lean ====
section
/-! SUPPORT. The model's own tests. Expected values are the spec's vectors (95_test_vectors.md, named in each comment) or
the words of R72 written out by hand. Then one witness per statement that has hypotheses. -/

/- One theorem at a time: the kernel evaluations need no more than one checking thread. -/
set_option Elab.async false

namespace Sys2Proof.Tests

open Sys2Proof Sys2Proof.Machine

/-! ### Helpers -/

/-- The default configuration with the `IP_ID` that most vectors of 95_test_vectors.md assume. -/
def cfgZero : Config := { window := 65535, ttl := 255, ipId := 0, ipw := IpWidths.standard, base := 0 }

/-- The operands and payload of vector T1. -/
def t1State : State :=
  { State.resetWith cfgZero with
    srcaddr := 0xC0A801AD, dstaddr := 0xC0A801A4, sport := 50164, dport := 37377, ackn := 7, plen := 5
    pbuf := [(0, 0x48), (1, 0x65), (2, 0x6C), (3, 0x6C), (4, 0x6F)] }

def nextOf : Outcome → Option State
  | .next s => some s
  | .fault _ => none
  | .refused _ => none

def faultOf : Outcome → Option Fault
  | .next _ => none
  | .fault f => some f
  | .refused _ => none

/-- STATUS, RES, RLEN and OLEN after one step that takes one access. -/
def regsAfter (s : State) (a : HostAccess) : Option (Nat × Nat × Nat × Nat) :=
  (nextOf (step { s with pending := [.access a] })).map
    (fun t => (t.status.toNat, t.res.toNat, t.rlen.toNat, t.olen.toNat))

/-- OBUF after one step that takes one access. -/
def obufAfter (s : State) (a : HostAccess) : Option (List Nat) :=
  (nextOf (step { s with pending := [.access a] })).map (fun t => t.obuf.map (fun c => c.2.toNat))

/-- The answer of one access. -/
def answerTo (s : State) (a : HostAccess) : Option Answer :=
  (nextOf (step { s with pending := [.access a] })).bind (fun t => t.answer)

/-! ### WellFormed and the decoder -/

/-- `WIDTH` 33 is no legal width (R70, R72). -/
theorem test_wellFormed_refuses_width_33 : WellFormed (.encode false 33) = false := by decide

theorem test_wellFormed_takes_width_32 : WellFormed (.encode true 32) = true := by decide

/-- R72: OP 0001, PADR 1, WIDTH 000100 (E2's word). -/
theorem test_decode_encode : decode 0b00000000000000000000010001000001#32 = .ok (.encode true 4) := by decide

/-- R72: OP 0010. -/
theorem test_decode_csum : decode 0b00000000000000000000000000000010#32 = .ok .csum := by decide

/-- R72: OP 0011, PLACE 10. -/
theorem test_decode_tcphdr : decode 0b00000000000000000000000000100011#32 = .ok (.tcphdr .last) := by decide

/-- R72: OP 0100. -/
theorem test_decode_iphdr : decode 0b00000000000000000000000000000100#32 = .ok .iphdr := by decide

/-- R72: OP 0101, PLACE 01. -/
theorem test_decode_assemble : decode 0b00000000000000000000000000010101#32 = .ok (.assemble .mid) := by decide

/-- W19: PLACE 3 and bit 7: condition 2 comes before condition 3. -/
theorem test_decode_order : decode 0x000000B5#32 = .error .mustBeZero := by decide

theorem test_table_word : decodeTableWord 32 0x00002041 = some (.encode true 32) := by decide

/-! ### ENCODE -/

/-- E10: VAL 1, WIDTH 32, right padding. -/
theorem test_encode_right :
    regsAfter { State.resetWith cfgZero with val := 1 } (.writeReg .cmd 0x2041) = some (1, 0x80000000, 32, 0) := by
  decide +kernel

/-- E7: VAL 256 in 8 bits. -/
theorem test_encode_overflow :
    regsAfter { State.resetWith cfgZero with val := 256 } (.writeReg .cmd 0x0801) = some (0x3012, 0, 0, 0) := by
  decide +kernel

/-! ### CSUM -/

/-- K6: words FFFF FFFF 0001, two folds. -/
theorem test_csum_two_folds :
    regsAfter
      { State.resetWith cfgZero with clen := 48, pbuf := [(0, 0xFF), (1, 0xFF), (2, 0xFF), (3, 0xFF), (4, 0), (5, 1)] }
      (.writeReg .cmd 2) = some (1, 0xFFFE, 16, 0) := by
  decide +kernel

/-- K17: the range check comes before the multiple-of-16 check. -/
theorem test_csum_range :
    regsAfter { State.resetWith cfgZero with clen := 524289 } (.writeReg .cmd 2) = some (0x552, 0, 0, 0) := by
  decide +kernel

/-! ### TCPHDR -/

/-- T1: odd payload, FIRST. -/
theorem test_tcphdr_bytes :
    obufAfter t1State (.writeReg .cmd 0x03) =
      some [0xC3, 0xF4, 0x92, 0x01, 0, 0, 0, 0, 0, 0, 0, 7, 0x50, 0x12, 0xFF, 0xFF, 0xB1, 0x5C, 0, 0] := by
  decide +kernel

/-- T15: the source port is checked before the segment length. -/
theorem test_tcphdr_port_first :
    regsAfter { t1State with sport := 65536, plen := 70000 } (.writeReg .cmd 0x03) = some (0x1012, 0, 0, 0) := by
  decide +kernel

/-! ### IPHDR -/

/-- I2: `IP_ID` 0xABCD. -/
theorem test_iphdr_bytes :
    obufAfter { t1State with cfg := { cfgZero with ipId := 0xABCD } } (.writeReg .cmd 0x04) =
      some [0x45, 0, 0, 0x2D, 0xAB, 0xCD, 0x40, 0, 0xFF, 0x06, 0x4B, 0x5B, 0xC0, 0xA8, 0x01, 0xAD, 0xC0, 0xA8, 0x01, 0xA4] := by
  decide +kernel

/-- I16: the checksum does not fit a 12-bit field on the second pass. -/
theorem test_iphdr_checksum_field :
    regsAfter
      { t1State with cfg := { cfgZero with ipw := { IpWidths.standard with checksum := 12, destination := 36 } } }
      (.writeReg .cmd 0x04) = some (0xA12, 0, 0, 0) := by
  decide +kernel

/-! ### ASSEMBLE -/

/-- S1: the source's end-to-end packet. -/
theorem test_assemble_packet :
    obufAfter t1State (.writeReg .cmd 0x05) =
      some [0x45, 0, 0, 0x2D, 0, 0, 0x40, 0, 0xFF, 0x06, 0xF7, 0x28, 0xC0, 0xA8, 0x01, 0xAD, 0xC0, 0xA8, 0x01, 0xA4,
        0xC3, 0xF4, 0x92, 0x01, 0, 0, 0, 0, 0, 0, 0, 7, 0x50, 0x12, 0xFF, 0xFF, 0xB1, 0x5C, 0, 0,
        0x48, 0x65, 0x6C, 0x6C, 0x6F] := by
  decide +kernel

/-- S8: the IPv4 header is built first. -/
theorem test_assemble_ip_first :
    regsAfter { t1State with sport := 65536, plen := 70000 } (.writeReg .cmd 0x05) = some (0x412, 0, 0, 0) := by
  decide +kernel

/-! ### The port, and steps from reset -/

/-- P1 line 10: before any command the gate is closed. -/
theorem test_gate_closed : answerTo t1State (.readOut 0) = some (.byte 0) := by decide +kernel

/-- W18: TCPHDR MID is legal right after reset. -/
theorem test_first_step_after_reset :
    (nextOf (step (State.reset.withFetchWord 32 0x13))).map (fun t => t.status.toNat) = some 1 := by decide +kernel

/-- The next step runs the decoded command on the state R25 prepares. -/
theorem test_fetch_runs_the_word :
    step (State.reset.withFetchWord 32 5) = exec (.assemble .first) (State.reset.beginCommand 5) := rfl

/-- R235: the sixth payload byte has not been written. -/
theorem test_unwritten_payload :
    faultOf (exec (.assemble .first) { t1State with plen := 6 }) = some (.unwrittenPayload 5) := by decide +kernel

/-- R80: `PAYLOAD` is its `WB` lines and `WR PLEN`. -/
theorem test_payload_line :
    (AsmLine.payload [0x48, 0x65]).accesses =
      some [.writeBuf 0 0x48, .writeBuf 1 0x65, .writeReg .plen 2] := by decide +kernel

/-! ### Witnesses: for each statement with hypotheses, values that meet them, clause by clause -/

/-- The payload of `t1State` as a function of the index. -/
def t1Payload : Nat → Byte
  | 0 => 0x48
  | 1 => 0x65
  | 2 => 0x6C
  | 3 => 0x6C
  | _ => 0x6F

/-- `t1State` with other IPv4 widths. -/
def withWidths (w : IpWidths) : State := { t1State with cfg := { cfgZero with ipw := w } }

/-- `t1State` with one access pending. -/
def about (a : HostAccess) : State := { t1State with pending := [.access a] }

/-- A state that holds one output byte. -/
def oneByteState : State := { t1State with obuf := [(0, 0x45)], olen := 1, status := 1 }

/-- `oneByteState` with one access pending. -/
def holdsOneByte (a : HostAccess) : State := { oneByteState with pending := [.access a] }

/-- A state no run reaches: OLEN counts a byte that nothing has written, and the host reads it. -/
def pastEnd : State := { oneByteState with olen := 2, pending := [.access (.readOut 1)] }

theorem witness_DecodingAnEncodedInstrGivesItBack :
    WellFormed (.encode true 32) = true ∧ WellFormed (.tcphdr .last) = true := by decide

theorem witness_DecodedWordIsTheInstrsOwnWord : decode 0x2041 = .ok (.encode true 32) := by decide

theorem witness_CommandMapRowsAreDisjointAndDecode :
    (encodeRow ∈ commandMap ∧ encodeRow.spells 0x2041 = true) ∧ decode 0x2041 = .ok (.encode true 32) ∧
    (encodeRow.spells 0x2041 = true ∧ (0x2041 : Word).toNat / 256 % 64 ≤ 32) ∧ csumRow.spells 2 = true ∧
    iphdrRow.spells 4 = true ∧ (tcphdrRow.spells 0x23 = true ∧ (0x23 : Word).toNat / 16 % 4 = fieldOfPlace .last) ∧
    (assembleRow.spells 0x15 = true ∧ (0x15 : Word).toNat / 16 % 4 = fieldOfPlace .mid) := by decide

/-- Words 0 and 15, 0x85, 0x33, 0x2101, 2 with CLEN 524289, and the legal 0x2001 (W1, W3, W9, W4, W6, K17). -/
theorem witness_IllegalWordsAreReportedInOrder :
    0 % 16 = 0 ∧ 6 ≤ 15 % 16 ∧ (1 ≤ 0x85 % 16 ∧ 0x85 % 16 ≤ 5 ∧ 0x85 / 128 % 2 ≠ 0) ∧
    (0x33 % 16 = 3 ∧ 0x33 / 64 = 0 ∧ 0x33 / 16 % 4 = 3) ∧
    (0x2101 % 16 = 1 ∧ 0x2101 / 16 % 4 = 0 ∧ 0x2101 / 128 % 2 = 0 ∧ 0x2101 / 16384 = 0 ∧ 32 < 0x2101 / 256 % 64) ∧
    (2 % 16 = 2 ∧ 2 / 16 = 0 ∧ 524288 < ({ t1State with clen := 524289 } : State).clen.toNat) ∧
    (0x2001 % 16 = 1 ∧ 0x2001 / 16 % 4 = 0 ∧ 0x2001 / 128 % 2 = 0 ∧ 0x2001 / 16384 = 0 ∧ ¬ 32 < 0x2001 / 256 % 64) := by
  decide

theorem witness_EncRoundTripsThroughNum :
    bitlen 5 ≤ 3 ∧ bitlen 5 ≤ 4 ∧ enc 5 4 true = some [true, false, true, false] := by decide

theorem witness_EncOverflowsExactlyWhenTooLong : 1 ≤ 8 ∧ 2 ^ 8 ≤ 256 ∧ enc 256 8 false = none := by decide

theorem witness_EncWidthZeroIsNaturalLength : ([true] : BitString) ≠ [] ∧ num [true] = 1 := by decide

theorem witness_EncValueOfEachPadding : 1 ≤ 1 ∧ bitlen 0 ≤ 1 ∧ bitlen 5 ≤ 3 := by decide

theorem witness_EncodeResultAndErrors :
    (32 ≤ 32 ∧ bitlen ({ t1State with val := 0xFFFFFFFF } : State).val.toNat ≤ 32) ∧
    (enc ({ t1State with val := 5 } : State).val.toNat 4 true = some [true, false, true, false]) ∧
    (31 ≤ 32 ∧ 31 ≠ 0 ∧ 31 < bitlen ({ t1State with val := 0xFFFFFFFF } : State).val.toNat) ∧ (32 < 33 ∧ 33 < 64) := by
  decide

theorem witness_FoldIsCongruenceAndEndAroundCarry :
    0xFFFFFFFF < 2 ^ 32 ∧ (∀ w ∈ [0xFFFF, 1], w ≤ 0xFFFF) ∧ (∃ w ∈ [0xFFFF, 1], w ≠ 0) ∧ [0xFFFF, 1].Perm [1, 0xFFFF] := by
  decide

theorem witness_ChecksumInPlaceAnswersZero :
    ([] : BitString).length % 16 = 0 ∧ (zeros 16).length % 16 = 0 := by decide

theorem witness_ChecksumOfBytesIsTheComplementedSum : 4 % 2 = 0 ∧ (zeros 15).length % 16 ≠ 0 := by decide

theorem witness_UnfoldedSumsFit32Bits :
    ∃ front, tcpPrepare .mid t1State = .ok front ∧ ([0x48, 0x65, 0x6C, 0x6C, 0x6F] : List Byte).length = t1State.plen.toNat :=
  ⟨_, rfl, rfl⟩

/-- CLEN 32 over the payload, CLEN 524289, and CLEN 8. -/
theorem witness_CsumResultAndErrors :
    (Memory.wf t1State.pbuf ∧ ({ t1State with clen := 32 } : State).clen.toNat ≤ 524288 ∧
      ({ t1State with clen := 32 } : State).clen.toNat % 16 = 0 ∧ t1State.PayloadIs (32 / 8) t1Payload) ∧
    524288 < ({ t1State with clen := 524289 } : State).clen.toNat ∧
    (({ t1State with clen := 8 } : State).clen.toNat ≤ 524288 ∧ ({ t1State with clen := 8 } : State).clen.toNat % 16 ≠ 0) := by
  decide +kernel

theorem witness_TcphdrLeavesTheHeaderBytes :
    Memory.wf t1State.pbuf ∧ t1State.PayloadIs t1State.plen.toNat t1Payload ∧ t1State.failMark = 0 ∧
    t1State.sport.toNat ≤ 65535 ∧ t1State.dport.toNat ≤ 65535 ∧ t1State.cfg.window ≤ 65535 ∧
    t1State.plen.toNat ≤ 65515 := by decide +kernel

/-- RSTAT 3; SPORT 65536; DPORT 65536; `WINDOW` 65536; PLEN 65516; the other operands those of `t1State`. -/
theorem witness_TcphdrErrorsInOrder :
    ({ t1State with rstat := 3 } : State).failMark ≠ 0 ∧
    (t1State.failMark = 0 ∧ 65535 < ({ t1State with sport := 65536 } : State).sport.toNat) ∧
    (t1State.sport.toNat ≤ 65535 ∧ 65535 < ({ t1State with dport := 65536 } : State).dport.toNat) ∧
    (t1State.dport.toNat ≤ 65535 ∧ 65535 < ({ cfgZero with window := 65536 } : Config).window) ∧
    (t1State.cfg.window ≤ 65535 ∧ 65515 < ({ t1State with plen := 65516 } : State).plen.toNat) := by decide

theorem witness_PlacementSetsTheFlags :
    (∃ s', s'.done = true ∧ exec (.tcphdr .last) t1State = .next s') ∧
    ∃ s', s'.done = true ∧ exec (.assemble .first) t1State = .next s' :=
  ⟨⟨_, by decide +kernel, rfl⟩, _, by decide +kernel, rfl⟩

theorem witness_IphdrLeavesTheHeaderBytes :
    t1State.cfg.ipw = IpWidths.standard ∧ t1State.cfg.ttl = 255 ∧ t1State.cfg.ipId ≤ 65535 ∧ t1State.failMark = 0 ∧
    ({ t1State with plen := 65495 } : State).plen.toNat ≤ 65495 := by decide

/-- The default widths, and I11's. -/
theorem witness_IphdrOfAnyConfiguration :
    (∀ w ∈ [IpWidths.standard, { IpWidths.standard with ttl := 9, protocol := 7 }],
      (withWidths w).failMark = 0 ∧ (withWidths w).plen.toNat ≤ 65495 ∧
      (∀ p ∈ ipPairs (withWidths w) 0, 1 ≤ p.2 ∧ fits p) ∧ (withWidths w).cfg.ipw.sum = 160 ∧
      refChecksum (tenWordSum (spelled (ipPairs (withWidths w) 0))) < 2 ^ (withWidths w).cfg.ipw.checksum) := by
  decide +kernel

/-- RSTAT 1; PLEN 65496; I10 (TTL in 4 bits, field 8); I9 (sum 162) and a width of 0 with sum 160; I16. -/
theorem witness_IphdrErrorsInOrder :
    ({ t1State with rstat := 1 } : State).failMark ≠ 0 ∧
    (t1State.failMark = 0 ∧ 65495 < ({ t1State with plen := 65496 } : State).plen.toNat) ∧
    ((ipPairs (withWidths { IpWidths.standard with ttl := 4 }) 0)[8]? = some (255, 4) ∧ ¬ fits (255, 4) ∧
      ∀ j < 8, ∀ q ∈ (ipPairs (withWidths { IpWidths.standard with ttl := 4 }) 0)[j]?, fits q) ∧
    ((∀ p ∈ ipPairs (withWidths { IpWidths.standard with dscp := 8 }) 0, fits p) ∧
      (withWidths { IpWidths.standard with dscp := 8 }).cfg.ipw.sum ≠ 160) ∧
    ((∀ p ∈ ipPairs (withWidths { IpWidths.standard with dscp := 8, ecn := 0 }) 0, fits p) ∧
      ∃ p ∈ ipPairs (withWidths { IpWidths.standard with dscp := 8, ecn := 0 }) 0, p.2 = 0) ∧
    ((∀ p ∈ ipPairs (withWidths { IpWidths.standard with checksum := 12, destination := 36 }) 0, 1 ≤ p.2 ∧ fits p) ∧
      (withWidths { IpWidths.standard with checksum := 12, destination := 36 }).cfg.ipw.sum = 160 ∧
      2 ^ 12 ≤ refChecksum (tenWordSum (spelled
        (ipPairs (withWidths { IpWidths.standard with checksum := 12, destination := 36 }) 0)))) := by
  decide +kernel

/-- The hypotheses of the statements about a successful IPHDR with the default widths and TTL. -/
theorem witness_StoredIpChecksumIsReproduced :
    t1State.cfg.ipw = IpWidths.standard ∧
    ∃ s', exec .iphdr t1State = .next s' ∧ s'.done = true := ⟨rfl, _, rfl, by decide +kernel⟩

theorem witness_IpChecksumIsTheComplementOfTheSum :
    t1State.cfg.ipw = IpWidths.standard ∧ t1State.cfg.ttl = 255 ∧
    ∃ s', exec .iphdr t1State = .next s' ∧ s'.done = true := ⟨rfl, rfl, witness_StoredIpChecksumIsReproduced.2⟩

/-- PLEN 65496 overflows, and PLEN 65495 is the largest that does not. -/
theorem witness_TotalLengthIsCheckedWithoutWrapping :
    t1State.failMark = 0 ∧ 65535 < 40 + ({ t1State with plen := 65496 } : State).plen.toNat ∧
    ∃ s', exec .iphdr { t1State with plen := 65495 } = .next s' ∧ s'.done = true :=
  ⟨by decide, by decide, _, rfl, by decide +kernel⟩

theorem witness_AddressesStandInOctetOrder :
    t1State.cfg.ipw = IpWidths.standard ∧ (∃ s', exec .iphdr t1State = .next s' ∧ s'.done = true) ∧
    t1State.srcaddr = dottedQuad 192 168 1 173 ∧ t1State.dstaddr = dottedQuad 192 168 1 164 :=
  ⟨rfl, ⟨_, rfl, by decide +kernel⟩, by decide, by decide⟩

theorem witness_AssembleLeavesThePacket :
    t1State.cfg.IsDefault ∧ Memory.wf t1State.pbuf ∧ t1State.PayloadIs t1State.plen.toNat t1Payload ∧
    t1State.failMark = 0 ∧ t1State.sport.toNat ≤ 65535 ∧ t1State.dport.toNat ≤ 65535 ∧
    t1State.plen.toNat ≤ 65495 := by decide +kernel

theorem witness_AssembleIsTheTwoBuildersAndThePayload :
    Memory.wf t1State.pbuf ∧ t1State.PayloadIs t1State.plen.toNat t1Payload ∧
    (∃ s₁, exec .iphdr t1State = .next s₁ ∧ s₁.done = true) ∧
    ∃ s₂, exec (.tcphdr .mid) t1State = .next s₂ ∧ s₂.done = true :=
  ⟨by decide, by decide +kernel, ⟨_, rfl, by decide +kernel⟩, _, rfl, by decide +kernel⟩

/-- PLEN 65496 fails in IPHDR; SPORT 65536 passes IPHDR and fails in TCPHDR. -/
theorem witness_AssembleReportsTheBuildersErrors :
    (∃ s₁, exec .iphdr { t1State with plen := 65496 } = .next s₁ ∧ s₁.err = true) ∧
    (∃ s₁, exec .iphdr { t1State with sport := 65536 } = .next s₁ ∧ s₁.done = true) ∧
    ∃ s₂, exec (.tcphdr .first) { t1State with sport := 65536 } = .next s₂ ∧ s₂.err = true :=
  ⟨⟨_, rfl, by decide +kernel⟩, ⟨_, rfl, by decide +kernel⟩, _, rfl, by decide +kernel⟩

theorem witness_AssembledChecksumsVerify :
    t1State.cfg.IsDefault ∧ Memory.wf t1State.pbuf ∧
    ∃ s', exec (.assemble .first) t1State = .next s' ∧ s'.done = true :=
  ⟨by decide, by decide, _, rfl, by decide +kernel⟩

theorem witness_PayloadIsCopiedUnchanged :
    Memory.wf t1State.pbuf ∧ 4 < t1State.plen.toNat ∧
    ∃ s', exec (.assemble .last) t1State = .next s' ∧ s'.done = true :=
  ⟨by decide, by decide, _, rfl, by decide +kernel⟩

theorem witness_NothingPartialIsVisible :
    ∃ s', exec (.assemble .first) { t1State with sport := 65536 } = .next s' ∧ s'.err = true :=
  ⟨_, rfl, by decide +kernel⟩

theorem witness_SynAndFinAreNeverBothSet :
    (∃ s', s'.done = true ∧ exec (.tcphdr .first) t1State = .next s' ∧ Memory.read s'.obuf 13 = some 0x12) ∧
    ∃ s', s'.done = true ∧ exec (.assemble .last) t1State = .next s' ∧ Memory.read s'.obuf 33 = some 0x11 :=
  ⟨⟨_, by decide +kernel, rfl, by decide +kernel⟩, _, by decide +kernel, rfl, by decide +kernel⟩

/-- CLEN 48 and PLEN 6 over the five written bytes: byte 5 is the first that is missing. -/
theorem witness_ReadingAnUnwrittenPayloadByteStops :
    Memory.wf t1State.pbuf ∧ Memory.read t1State.pbuf 5 = none ∧ (∀ j < 5, Memory.read t1State.pbuf j ≠ none) ∧
    (({ t1State with clen := 48 } : State).clen.toNat ≤ 524288 ∧ ({ t1State with clen := 48 } : State).clen.toNat % 16 = 0 ∧
      5 < ({ t1State with clen := 48 } : State).clen.toNat / 8) ∧
    (t1State.failMark = 0 ∧ t1State.sport.toNat ≤ 65535 ∧ t1State.dport.toNat ≤ 65535 ∧ t1State.cfg.window ≤ 65535 ∧
      ({ t1State with plen := 6 } : State).plen.toNat ≤ 65515 ∧ 5 < ({ t1State with plen := 6 } : State).plen.toNat) ∧
    ∃ s₁, exec .iphdr { t1State with plen := 6 } = .next s₁ ∧ s₁.done = true :=
  ⟨by decide, by decide, by decide, by decide, by decide, _, rfl, by decide +kernel⟩

theorem witness_CommandFrame :
    (∃ s', exec (.encode false 4) t1State = .next s') ∧ (∃ s', exec .csum t1State = .next s') ∧
    (∃ s', exec (.tcphdr .mid) t1State = .next s' ∧ 20 ≤ 20) ∧ (∃ s', exec .iphdr t1State = .next s' ∧ 20 ≤ 20) ∧
    (∃ s', exec (.assemble .mid) t1State = .next s' ∧ 40 + t1State.plen.toNat ≤ 45) ∧
    ∃ s', exec .iphdr { t1State with rstat := 2 } = .next s' ∧ s'.err = true :=
  ⟨⟨_, rfl⟩, ⟨_, rfl⟩, ⟨_, rfl, by decide⟩, ⟨_, rfl, by decide⟩, ⟨_, rfl, by decide⟩, _, rfl, by decide +kernel⟩

theorem witness_ErrorLeavesOnlyItsReport : ∃ s', runCommand 0x33 t1State = .next s' ∧ s'.err = true :=
  ⟨_, rfl, by decide +kernel⟩

theorem witness_ExactlyOneOfDoneAndErr : ∃ s', runCommand 0x0401 t1State = .next s' := ⟨_, rfl⟩

/-- One error of each code that a well-formed instruction can report. -/
theorem witness_EachErrorHasItsCommands :
    WellFormed (.encode false 1) = true ∧
    (∃ s', exec (.encode false 1) { t1State with val := 2 } = .next s' ∧ s'.err = true ∧ s'.errcode = 1) ∧
    (∃ s', exec .iphdr (withWidths { IpWidths.standard with dscp := 8 }) = .next s' ∧ s'.err = true ∧ s'.errcode = 2) ∧
    (∃ s', exec (.tcphdr .first) { t1State with rstat := 1 } = .next s' ∧ s'.err = true ∧ s'.errcode = 3) ∧
    (∃ s', exec .csum { t1State with clen := 8 } = .next s' ∧ s'.err = true ∧ s'.errcode = 4) ∧
    ∃ s', exec .csum { t1State with clen := 524289 } = .next s' ∧ s'.err = true ∧ s'.errcode = 5 :=
  ⟨by decide, ⟨_, rfl, by decide +kernel⟩, ⟨_, rfl, by decide +kernel⟩, ⟨_, rfl, by decide +kernel⟩,
    ⟨_, rfl, by decide +kernel⟩, _, rfl, by decide +kernel⟩

theorem witness_HeaderLengthErrorNeedsOtherWidths :
    (∃ s', exec .iphdr (withWidths { IpWidths.standard with dscp := 8 }) = .next s' ∧ s'.errcode = 2) ∧
    (t1State.cfg.ipw = IpWidths.standard ∧ ∃ s', exec .iphdr t1State = .next s') ∧
    (t1State.failMark = 0 ∧ t1State.plen.toNat ≤ 65495 ∧
      (∀ p ∈ ipPairs (withWidths { IpWidths.standard with dscp := 8 }) 0, fits p) ∧
      (withWidths { IpWidths.standard with dscp := 8 }).cfg.ipw.sum ≠ 160) :=
  ⟨⟨_, rfl, by decide +kernel⟩, ⟨rfl, _, rfl⟩, by decide +kernel⟩

theorem witness_ResolutionFailureComesFirst :
    ({ t1State with rstat := 3 } : State).failMark ≠ 0 ∧
    (∃ s', exec .iphdr { t1State with rstat := 3 } = .next s' ∧ s'.errcode = 3) ∧
    (∃ s', exec (.encode false 4) t1State = .next s') ∧ ∃ s', exec .csum t1State = .next s' :=
  ⟨by decide, ⟨_, rfl, by decide +kernel⟩, ⟨_, rfl⟩, _, rfl⟩

theorem witness_ChecksumLengthErrorIsCsumsAlone :
    (∃ s', exec .csum { t1State with clen := 8 } = .next s' ∧ s'.errcode = 4) ∧
    ({ t1State with clen := 8 } : State).clen.toNat ≤ 524288 ∧ ({ t1State with clen := 8 } : State).clen.toNat % 16 ≠ 0 :=
  ⟨⟨_, rfl, by decide +kernel⟩, by decide⟩

/-- RSTAT 0xFFFFFFFC carries the same mark as 0; RSTAT 2 is a failure. -/
theorem witness_OnlyTheTwoMarksOfRstatMatter :
    (0xFFFFFFFC : Word).toNat % 4 = t1State.failMark ∧ (∃ s', exec .iphdr t1State = .next s') ∧
    ({ t1State with rstat := 2 } : State).failMark ≠ 0 ∧ ∃ s', exec .iphdr { t1State with rstat := 2 } = .next s' :=
  ⟨by decide, ⟨_, rfl⟩, by decide, _, rfl⟩

/-- IPHDR in two states that differ in the ports, in VAL and in the payload. -/
theorem witness_ResultsDependOnOperandsAlone :
    Memory.wf t1State.pbuf ∧ Memory.wf ({ t1State with pbuf := [], sport := 1, val := 9 } : State).pbuf ∧
    SameOperands .iphdr t1State { t1State with pbuf := [], sport := 1, val := 9 } ∧
    ∃ s', exec .iphdr t1State = .next s' :=
  ⟨by decide, by decide, ⟨rfl, rfl, rfl, rfl, rfl, rfl, rfl⟩, _, rfl⟩

theorem witness_EveryCommandWriteEnds : Memory.wf t1State.pbuf := by decide

theorem witness_CmdWriteRunsTheDecodedCommand :
    (about (.writeReg .cmd 4)).pending = .access (.writeReg .cmd 4) :: [] ∧ decode 4 = .ok .iphdr ∧
    (about (.writeReg .cmd 0)).pending = .access (.writeReg .cmd 0) :: [] ∧ decode 0 = .error .noCommand := by decide

theorem witness_HostAccessesHaveTheirEffects :
    ((about (.writeReg .clen 9)).pending = .access (.writeReg .clen 9) :: [] ∧ Reg.clen.number < 10) ∧
    ((about (.writeReg .status 9)).pending = .access (.writeReg .status 9) :: [] ∧ 11 ≤ Reg.status.number) ∧
    (about (.readReg .reserved)).pending = .access (.readReg .reserved) :: [] ∧
    (about (.writeBuf 65535 1)).pending = .access (.writeBuf 65535 1) :: [] ∧
    ((about (.readBuf 4)).pending = .access (.readBuf 4) :: [] ∧ Memory.read t1State.pbuf 4 = some 0x6F) ∧
    ((about (.readBuf 5)).pending = .access (.readBuf 5) :: [] ∧ Memory.read t1State.pbuf 5 = none) ∧
    ((about (.readOut 0)).pending = .access (.readOut 0) :: [] ∧ t1State.status.getLsbD 0 = false) ∧
    ((holdsOneByte (.readOut 1)).pending = .access (.readOut 1) :: [] ∧ oneByteState.olen.toNat ≤ 1) ∧
    ((holdsOneByte (.readOut 0)).pending = .access (.readOut 0) :: [] ∧ oneByteState.status.getLsbD 0 = true ∧
      0 < oneByteState.olen.toNat ∧ Memory.read oneByteState.obuf 0 = some 0x45) ∧
    (pastEnd.pending = .access (.readOut 1) :: [] ∧ pastEnd.status.getLsbD 0 = true ∧ 1 < pastEnd.olen.toNat ∧
      Memory.read pastEnd.obuf 1 = none) := by decide +kernel

theorem witness_InputWritesInvalidate :
    ((about (.writeReg .clen 9)).pending = .access (.writeReg .clen 9) :: [] ∧ Reg.clen.number ≤ 9) ∧
    (about (.writeBuf 0 1)).pending = .access (.writeBuf 0 1) :: [] ∧
    ((about (.writeReg .cmd 2)).pending = .access (.writeReg .cmd 2) :: [] ∧ decode 2 = .ok .csum) ∧
    ((about (.writeReg .cmd 0)).pending = .access (.writeReg .cmd 0) :: [] ∧ decode 0 = .error .noCommand) := by
  decide +kernel

/-- The state of one output byte keeps the invariant, and its gate is open at index 0. -/
theorem witness_OutputGateShowsOnlyTheResult :
    oneByteState.Inv ∧ oneByteState.done = true ∧ 0 < oneByteState.olen.toNat ∧ t1State.done = false where
  left :=
    { pbufWf := by decide, obufWf := by decide, pbufIn := by decide, obufIn := by decide, outcome := .inr (.inl rfl)
      quiet := fun h => absurd rfl h, number := by decide, oneResult := .inr ⟨rfl, rfl⟩, outputFits := by decide
      outputWritten := by decide }
  right := by decide +kernel

theorem witness_AccessesTakeEffectOneAtATime :
    t1State.pending = [] ∧ ∃ s', step (about (.readReg .cmd)) = .next s' := ⟨rfl, _, rfl⟩

theorem witness_ConfigurationNeverChanges : ∃ s', step (about (.writeReg .cmd 4)) = .next s' := ⟨_, rfl⟩

theorem witness_ReadsHaveNoSideEffect :
    (about (.readOut 0)).pending = .access (.readOut 0) :: [] ∧
    (∀ r v, HostAccess.readOut 0 ≠ .writeReg r v) ∧ ∀ i b, HostAccess.readOut 0 ≠ .writeBuf i b :=
  ⟨rfl, (by intro r v h; cases h), (by intro i b h; cases h)⟩

theorem witness_ResetLeavesTheResetState : ({ t1State with pending := [.reset] } : State).pending = .reset :: [] := rfl

/-- A state that keeps the invariant and takes a step: the one-byte state with an IPHDR write pending. -/
theorem witness_StepKeepsTheInvariant :
    State.Inv { oneByteState with pending := [.access (.writeReg .cmd 4)] } ∧
    ∃ s', step { oneByteState with pending := [.access (.writeReg .cmd 4)] } = .next s' :=
  ⟨{ witness_OutputGateShowsOnlyTheResult.1 with }, _, rfl⟩

/-- A state that holds a fresh result (ENCODE 4 of VAL 5, E1) and takes a step. -/
theorem witness_HeldResultAlwaysBelongsToTheInputs :
    State.Fresh
      { t1State with
        val := 5, cmd := 0x401, status := 1, res := 5, rlen := 4, pending := [.access (.readReg .res)] } ∧
    ∃ s', step
      { t1State with
        val := 5, cmd := 0x401, status := 1, res := 5, rlen := 4, pending := [.access (.readReg .res)] } = .next s' :=
  ⟨.inr rfl, _, rfl⟩

theorem witness_CommandLinesStandForTheirWords : 32 ≤ 32 ∧ WellFormed (.encode false 32) = true := by decide

end Sys2Proof.Tests
end

section
/-! R5, R20, R36: the configuration is an argument of the model. Neither end of a command touches it, nor does any
access or reset, so no step changes it. -/

namespace Sys2Proof.Machine

/-- However a command ends, by a report or by a result (R30), it leaves the configuration. -/
@[simp] theorem State.settle_cfg (s : State) (r : Except Error Result) : (s.settle r).cfg = s.cfg := by
  cases r with
  | error e => exact s.raise_cfg e
  | ok res =>
    cases res with
    | number res rlen => exact s.finishNumber_cfg res rlen
    | output bs => exact s.finishOutput_cfg bs

theorem runCommand_cfg {c : Word} {s s' : State} (h : runCommand c s = .next s') : s'.cfg = s.cfg := by
  obtain ⟨w, -, rfl⟩ | ⟨i, r, -, -, -, rfl⟩ := runCommand_cases h
  · rw [State.raise_cfg, State.beginCommand_cfg]
  · rw [State.settle_cfg, State.beginCommand_cfg]

theorem perform_cfg {a : HostAccess} {s s' : State} (h : perform a s = .next s') : s'.cfg = s.cfg := by
  obtain ⟨c, -, hc⟩ | ⟨r, v, -, -, rfl⟩ | ⟨i, b, -, rfl⟩ | ⟨ans, rfl⟩ := perform_cases h
  · exact runCommand_cfg hc
  · exact (s.writeReg_frame r v).1
  · exact s.writeBuf_cfg i.val b
  · rfl

/-- Settles O49: an idle step changes nothing, and neither reset nor an access writes the configuration. -/
theorem configurationNeverChanges : Obligations.ConfigurationNeverChanges := by
  intro s s' h
  obtain ⟨-, rfl⟩ | ⟨e, rest, -, ⟨-, rfl⟩ | ⟨a, -, ha⟩⟩ := step_cases h
  · rfl
  · rw [State.applyReset_cfg, State.issue_cfg]
  · rw [perform_cfg ha, State.issue_cfg]

end Sys2Proof.Machine
end

section
/-! The one way a command ends (R30, R211), said once for every result: what `State.settle` may change, what it ignores,
and that settling the same result again changes nothing. Then the same of a CMD write. -/

namespace Sys2Proof.Machine

/-! ### `settle` -/

/-- Only STATUS, the three result registers and OBUF can differ after a command (R30, R211). -/
theorem State.settle_frame (s : State) (r : Except Error Result) :
    s.settle r = { s with
      status := (s.settle r).status, res := (s.settle r).res, rlen := (s.settle r).rlen, olen := (s.settle r).olen,
      obuf := (s.settle r).obuf } := by
  obtain e | ⟨res, rlen⟩ | bs := r <;> rfl

/-- STATUS after a command is the report of an error, which leaves OBUF alone, or DONE. -/
theorem State.settle_status (s : State) (r : Except Error Result) :
    (∃ e, (s.settle r).status = statusError e ∧ (s.settle r).obuf = s.obuf) ∨ (s.settle r).status = statusDone := by
  obtain e | ⟨res, rlen⟩ | bs := r
  · exact .inl ⟨e, rfl, rfl⟩
  · exact .inr rfl
  · exact .inr rfl

/-- R30: exactly one of DONE and ERR. -/
theorem State.settle_done_eq_not_err (s : State) (r : Except Error Result) :
    (s.settle r).done = !(s.settle r).err := by
  obtain ⟨e, he, -⟩ | hdone := s.settle_status r
  · obtain ⟨hd, herr⟩ := flags_of_error he
    rw [hd, herr, Bool.not_true]
  · obtain ⟨hd, herr⟩ := flags_of_done hdone
    rw [hd, herr, Bool.not_false]

/-- R211: an error stores no output byte. -/
theorem State.settle_obuf_of_err {s : State} {r : Except Error Result} (h : (s.settle r).err = true) :
    (s.settle r).obuf = s.obuf := by
  obtain ⟨e, -, hobuf⟩ | hdone := s.settle_status r
  · exact hobuf
  · rw [(flags_of_done hdone).2] at h
    cases h

/-- What the result registers held before is overwritten. -/
theorem State.settle_overwrites (s : State) (st v l o : Word) (r : Except Error Result) :
    { s with status := st, res := v, rlen := l, olen := o }.settle r = s.settle r := by
  obtain e | ⟨res, rlen⟩ | bs := r <;> rfl

/-- The host's side of the port passes through. -/
theorem State.settle_withPort (s : State) (p : List HostEvent) (a : Option Answer) (r : Except Error Result) :
    { s with pending := p, answer := a }.settle r = { s.settle r with pending := p, answer := a } := by
  obtain e | ⟨res, rlen⟩ | bs := r <;> rfl

/-- RSTAT passes through. -/
theorem State.settle_withRstat (s : State) (v : Word) (r : Except Error Result) :
    { s with rstat := v }.settle r = { s.settle r with rstat := v } := by
  obtain e | ⟨res, rlen⟩ | bs := r <;> rfl

/-- The addresses pass through. -/
theorem State.settle_withAddresses (s : State) (a a' : Word) (r : Except Error Result) :
    { s with srcaddr := a, dstaddr := a' }.settle r = { s.settle r with srcaddr := a, dstaddr := a' } := by
  obtain e | ⟨res, rlen⟩ | bs := r <;> rfl

/-- Settling a result where it is held already changes nothing: OBUF takes the bytes it has. -/
theorem State.settle_again (s : State) (c : Word) (r : Except Error Result) :
    (((s.beginCommand c).settle r).beginCommand c).settle r = (s.beginCommand c).settle r := by
  obtain e | ⟨res, rlen⟩ | bs := r
  · rfl
  · rfl
  · exact congrArg (fun m => { (s.beginCommand c).finishOutput bs with obuf := m })
      (Memory.writeBlock_writeBlock_same s.obuf 0 bs)

/-! ### A CMD write (R25) -/

theorem runCommand_of_decode_ok {c : Word} {i : Instr} (h : decode c = .ok i) (s : State) :
    runCommand c s = exec i (s.beginCommand c) := by
  rw [runCommand, h]

theorem runCommand_of_decode_error {c : Word} {w : IllegalWord} (h : decode c = .error w) (s : State) :
    runCommand c s = .next ((s.beginCommand c).raise (.illegalCommand w.errfield)) := by
  rw [runCommand, h]

/-- Legal word or not, a CMD write settles one result at the state with CMD written and the result cleared. That result
depends neither on CMD, nor on the result registers, OBUF or the host's side of the port. -/
theorem runCommand_settles {c : Word} {s s' : State} (h : runCommand c s = .next s') :
    ∃ r, s' = (s.beginCommand c).settle r ∧
      ∀ t : State, t.beginCommand c = { s.beginCommand c with
        obuf := t.obuf, pending := t.pending, answer := t.answer } →
        runCommand c t = .next ((t.beginCommand c).settle r) := by
  obtain ⟨w, hw, rfl⟩ | ⟨i, r, hi, hr, -, rfl⟩ := runCommand_cases h
  · exact ⟨.error (.illegalCommand w.errfield), rfl, fun t _ => runCommand_of_decode_error hw t⟩
  · refine ⟨r, rfl, fun t ht => ?_⟩
    have hsame : commandResult i (t.beginCommand c) = commandResult i (s.beginCommand c) :=
      commandResult_congr i _ _ (by rw [ht])
    rw [runCommand_of_decode_ok hi]
    exact (exec_next_iff _ _ _).2 ⟨r, hsame.trans hr, rfl⟩

/-- Running a word again where it has just run changes nothing. -/
theorem runCommand_again {c : Word} {s s' : State} (h : runCommand c s = .next s') :
    s'.cmd = c ∧ runCommand c s' = .next s' := by
  obtain ⟨r, rfl, hrun⟩ := runCommand_settles h
  have hframe := (s.beginCommand c).settle_frame r
  refine ⟨by rw [hframe]; rfl, ?_⟩
  rw [hrun _ (by rw [hframe]; rfl), State.settle_again]

/-- What the host has pending, and its last answer, change nothing in a CMD write and are not changed by it. -/
theorem runCommand_withPort {c : Word} {s s' : State} (h : runCommand c s = .next s') (p : List HostEvent)
    (a : Option Answer) :
    runCommand c { s with pending := p, answer := a } = .next { s' with pending := p, answer := a } := by
  obtain ⟨r, rfl, hrun⟩ := runCommand_settles h
  have hport := hrun { s with pending := p, answer := a } rfl
  exact hport.trans (congrArg Host.Outcome.next ((s.beginCommand c).settle_withPort p a r))

end Sys2Proof.Machine
end

section
/-! What one access or reset makes of a step, as equations (R53, R55). -/

namespace Sys2Proof.Machine

theorem step_of_pending {s : State} {e : HostEvent} {rest : List HostEvent} (h : s.pending = e :: rest) :
    step s = takeEvent e (s.issue rest) := by
  rw [step, h]

/-- A write to any register but CMD. -/
theorem perform_writeReg {r : Reg} (hr : r ≠ .cmd) (v : Word) (s : State) :
    perform (.writeReg r v) s = .next (s.writeReg r v) := by
  cases r
  case cmd => exact absurd rfl hr
  all_goals rfl

/-- R31: a write to an operand register clears STATUS, RES, RLEN and OLEN. -/
theorem State.writeReg_operand_clears (s : State) {r : Reg} (h : r.isOperand = true) (v : Word) :
    (s.writeReg r v).status = 0 ∧ (s.writeReg r v).res = 0 ∧ (s.writeReg r v).rlen = 0 ∧ (s.writeReg r v).olen = 0 := by
  have hr : r.number < 10 := of_decide_eq_true h
  have hclear : ∀ q : Reg, 10 < q.number → (s.writeReg r v).readReg q = 0 := by
    intro q hq
    rw [s.readReg_writeReg r q v h, if_neg (by rintro rfl; omega), if_neg (by omega)]
  exact ⟨hclear .status (by decide), hclear .res (by decide), hclear .rlen (by decide), hclear .olen (by decide)⟩

end Sys2Proof.Machine
end

section
/-! The state invariant (R24, R26, R28, R50): every event from the host and every end of a command keeps it. -/

namespace Sys2Proof.Machine

/-- A state that holds no result keeps the invariant where its buffers and its report do. -/
theorem State.Inv.of_noResult {s : State} (hpw : Memory.wf s.pbuf) (how : Memory.wf s.obuf)
    (hpi : ∀ c ∈ s.pbuf, c.1 < pbufSize) (hoi : ∀ c ∈ s.obuf, c.1 < obufSize)
    (hstatus : s.status = 0 ∨ ∃ e : Error, e.Legal ∧ s.status = statusError e)
    (hclear : s.res = 0 ∧ s.rlen = 0 ∧ s.olen = 0) : s.Inv := by
  obtain ⟨hres, hrlen, holen⟩ := hclear
  exact {
    pbufWf := hpw
    obufWf := how
    pbufIn := hpi
    obufIn := hoi
    outcome := hstatus.imp_right .inr
    quiet := fun _ => ⟨hres, hrlen, holen⟩
    number := by simp [hres, hrlen]
    oneResult := .inl holen
    outputFits := by simp [holen]
    outputWritten := by simp [holen] }

/-- The invariant does not look at the host's side of the port. -/
theorem State.Inv.withPort {s : State} (h : s.Inv) (p : List HostEvent) (a : Option Answer) :
    State.Inv { s with pending := p, answer := a } := { h with }

/-- R36: nothing is written and nothing is held. -/
theorem State.Inv.afterReset (cfg : Config) (p : List HostEvent) :
    State.Inv { State.resetWith cfg with pending := p } :=
  .of_noResult List.Pairwise.nil List.Pairwise.nil (by simp) (by simp) (.inl rfl) ⟨rfl, rfl, rfl⟩

theorem State.Inv.beginCommand {s : State} (h : s.Inv) (c : Word) : (s.beginCommand c).Inv :=
  .of_noResult h.pbufWf h.obufWf h.pbufIn h.obufIn (.inl rfl) ⟨rfl, rfl, rfl⟩

theorem State.Inv.writeReg {s : State} (h : s.Inv) (r : Reg) (v : Word) : (s.writeReg r v).Inv := by
  obtain hsame | ⟨hstatus, hclear⟩ := s.writeReg_clears r v
  · rwa [hsame]
  · obtain ⟨-, -, hpbuf, hobuf, -, -⟩ := s.writeReg_frame r v
    refine .of_noResult ?_ ?_ ?_ ?_ (.inl hstatus) hclear
    · rw [hpbuf]; exact h.pbufWf
    · rw [hobuf]; exact h.obufWf
    · rw [hpbuf]; exact h.pbufIn
    · rw [hobuf]; exact h.obufIn

theorem State.Inv.writeBuf {s : State} (h : s.Inv) (i : Fin pbufSize) (b : Byte) : (s.writeBuf i.val b).Inv := by
  have hin : ∀ c ∈ Memory.write s.pbuf i.val b, c.1 < pbufSize := by
    intro c hc
    obtain hold | ⟨-, hnew⟩ := Memory.mem_writeBlock hc
    · exact h.pbufIn c hold
    · rw [List.length_singleton] at hnew
      omega
  exact .of_noResult (Memory.wf_write h.pbufWf i.val b) h.obufWf hin h.obufIn (.inl rfl) ⟨rfl, rfl, rfl⟩

/-- R211: the report of a legal error. -/
theorem State.Inv.raise {s : State} (h : s.Inv) {e : Error} (he : e.Legal) : (s.raise e).Inv :=
  .of_noResult h.pbufWf h.obufWf h.pbufIn h.obufIn (.inr ⟨e, he, rfl⟩) ⟨rfl, rfl, rfl⟩

/-- R100: a number of at most 32 bits goes into RES and RLEN without loss. -/
theorem State.Inv.finishNumber {s : State} (h : s.Inv) {res rlen : Nat} (hlen : rlen ≤ 32) (hres : res < 2 ^ rlen) :
    (s.finishNumber res rlen).Inv where
  pbufWf := h.pbufWf
  obufWf := h.obufWf
  pbufIn := h.pbufIn
  obufIn := h.obufIn
  outcome := .inr (.inl rfl)
  quiet := fun hne => absurd rfl hne
  number := by
    have h32 : res < 2 ^ 32 := hres.trans_le (Nat.pow_le_pow_right (by omega) hlen)
    rw [s.finishNumber_res, s.finishNumber_rlen, BitVec.toNat_ofNat, BitVec.toNat_ofNat, Nat.mod_eq_of_lt h32,
      Nat.mod_eq_of_lt (by omega)]
    exact ⟨hlen, hres⟩
  oneResult := .inl rfl
  outputFits := by simp
  outputWritten := by simp

/-- R28: at most 65535 output bytes stay inside OBUF, OLEN counts them without loss, and all of them are written. -/
theorem State.Inv.finishOutput {s : State} (h : s.Inv) {bs : List Byte} (hmax : bs.length ≤ 65535) :
    (s.finishOutput bs).Inv := by
  have holen : (s.finishOutput bs).olen.toNat = bs.length := by
    rw [s.finishOutput_olen, BitVec.toNat_ofNat, Nat.mod_eq_of_lt (by omega)]
  exact {
    pbufWf := h.pbufWf
    obufWf := Memory.wf_writeBlock h.obufWf 0 bs
    pbufIn := h.pbufIn
    obufIn := by
      intro c hc
      obtain hold | ⟨-, hnew⟩ := Memory.mem_writeBlock hc
      · exact h.obufIn c hold
      · change c.1 < 65536
        omega
    outcome := .inr (.inl rfl)
    quiet := fun hne => absurd rfl hne
    number := by simp
    oneResult := .inr ⟨rfl, rfl⟩
    outputFits := holen.trans_le hmax
    outputWritten := by
      intro k hk
      rw [holen] at hk
      have hread := Memory.read_writeBlock_inside s.obuf 0 bs hk
      rw [Nat.zero_add, List.getElem?_eq_getElem hk] at hread
      rw [s.finishOutput_obuf, hread]
      exact Option.some_ne_none _ }

/-- Whatever a command can end with, the invariant is kept. -/
theorem State.Inv.settle {s : State} (h : s.Inv) {i : Instr} {t : State} {r : Except Error Result}
    (hr : ResultOf i t r) : (s.settle r).Inv := by
  cases hr with
  | error e he => exact h.raise he
  | number res rlen _ hlen hres => exact h.finishNumber hlen hres
  | output bs _ _ hmax => exact h.finishOutput hmax

theorem runCommand_keeps_inv {c : Word} {s s' : State} (hs : s.Inv) (h : runCommand c s = .next s') : s'.Inv := by
  obtain ⟨w, -, rfl⟩ | ⟨i, r, -, -, hr, rfl⟩ := runCommand_cases h
  · exact (hs.beginCommand c).raise (IllegalWord.errfield_legal w)
  · exact (hs.beginCommand c).settle hr

theorem perform_keeps_inv {a : HostAccess} {s s' : State} (hs : s.Inv) (h : perform a s = .next s') : s'.Inv := by
  obtain ⟨c, -, hc⟩ | ⟨r, v, -, -, rfl⟩ | ⟨i, b, -, rfl⟩ | ⟨ans, rfl⟩ := perform_cases h
  · exact runCommand_keeps_inv hs hc
  · exact hs.writeReg r v
  · exact hs.writeBuf i b
  · exact hs.withPort s.pending ans

/-- Settles O54, by the cases of a step: idle, reset, or an access. -/
theorem stepKeepsTheInvariant : Obligations.StepKeepsTheInvariant := by
  intro s s' hs h
  obtain ⟨-, rfl⟩ | ⟨e, rest, -, ⟨-, rfl⟩ | ⟨a, -, ha⟩⟩ := step_cases h
  · exact hs
  · exact .afterReset s.cfg rest
  · exact perform_keeps_inv (hs.withPort rest none) ha

/-- Settles O53: the state after reset keeps the invariant, whatever is pending. -/
theorem invariantHoldsAfterReset : Obligations.InvariantHoldsAfterReset :=
  State.Inv.afterReset

/-- Settles O47: an open gate shows a byte that some command has written. -/
theorem outputGateShowsOnlyTheResult : Obligations.OutputGateShowsOnlyTheResult := by
  refine fun s k => ⟨fun hclosed => ?_, fun hs hdone hk => ?_⟩
  · rw [State.readOut, if_neg]
    rw [Bool.and_eq_true, decide_eq_true_eq]
    rintro ⟨hdone, hk⟩
    obtain hd | hle := hclosed
    · rw [hd] at hdone
      cases hdone
    · omega
  · obtain ⟨b, hb⟩ := Option.ne_none_iff_exists'.1 (hs.outputWritten k hk)
    refine ⟨b, hb, ?_⟩
    rw [State.readOut, if_pos (by rw [hdone, decide_eq_true hk]; rfl), Memory.answer, hb]

end Sys2Proof.Machine
end

section
/-! No stale result (R31, R212): every input write and reset clear what is held, a CMD write replaces it, and a read
leaves both it and the inputs. -/

namespace Sys2Proof.Machine

/-- What is held does not hang on the host's side of the port. -/
theorem State.Fresh.withPort {s : State} (h : s.Fresh) (p : List HostEvent) (a : Option Answer) :
    State.Fresh { s with pending := p, answer := a } :=
  h.imp_right (fun hrun => runCommand_withPort hrun p a)

theorem State.Fresh.writeReg {s : State} (h : s.Fresh) (r : Reg) (v : Word) : (s.writeReg r v).Fresh := by
  obtain hsame | ⟨hstatus, -⟩ := s.writeReg_clears r v
  · rwa [hsame]
  · exact .inl hstatus

theorem runCommand_fresh {c : Word} {s s' : State} (h : runCommand c s = .next s') : s'.Fresh := by
  obtain ⟨hcmd, hagain⟩ := runCommand_again h
  exact .inr (by rw [hcmd, hagain])

theorem perform_keeps_fresh {a : HostAccess} {s s' : State} (hs : s.Fresh) (h : perform a s = .next s') : s'.Fresh := by
  obtain ⟨c, -, hc⟩ | ⟨r, v, -, -, rfl⟩ | ⟨i, b, -, rfl⟩ | ⟨ans, rfl⟩ := perform_cases h
  · exact runCommand_fresh hc
  · exact hs.writeReg r v
  · exact .inl (s.writeBuf_status i.val b)
  · exact hs.withPort s.pending ans

/-- Settles O56: a result is what its command makes of inputs that no later access can change without clearing it. -/
theorem heldResultAlwaysBelongsToTheInputs : Obligations.HeldResultAlwaysBelongsToTheInputs := by
  intro s s' hs h
  obtain ⟨-, rfl⟩ | ⟨e, rest, -, ⟨-, rfl⟩ | ⟨a, -, ha⟩⟩ := step_cases h
  · exact hs
  · exact .inl (s.issue rest).applyReset_status
  · exact perform_keeps_fresh (hs.withPort rest none) ha

/-- Settles O55: after reset STATUS is 0, so nothing is held. -/
theorem heldResultIsFreshAfterReset : Obligations.HeldResultIsFreshAfterReset :=
  fun cfg _ => .inl (State.resetWith_status cfg)

end Sys2Proof.Machine
end

section
/-! What a command leaves unchanged, and what it does not read (R20 to R30, R204). -/

namespace Sys2Proof.Machine

/-- OBUF from the count of output bytes on is as before, whatever the result. -/
theorem State.settle_obuf_beyond {i : Instr} {s : State} {r : Except Error Result} (hr : ResultOf i s r) {a : Nat}
    (ha : outputCount i s ≤ a) : Memory.read (s.settle r).obuf a = Memory.read s.obuf a := by
  cases hr with
  | error e _ => rfl
  | number res rlen _ _ _ => rfl
  | output bs _ hlen _ => exact Memory.read_writeBlock_outside s.obuf 0 bs (.inr (by omega))

/-- ENCODE and CSUM have no output bytes. -/
theorem State.settle_obuf_of_number {i : Instr} {s : State} {r : Except Error Result} (hr : ResultOf i s r)
    (hi : i = .csum ∨ ∃ pr w, i = .encode pr w) : (s.settle r).obuf = s.obuf := by
  cases hr with
  | error e _ => rfl
  | number res rlen _ _ _ => rfl
  | output bs hout _ _ =>
    obtain rfl | ⟨pr, w, rfl⟩ := hi
    · exact absurd rfl hout.1
    · exact absurd rfl (hout.2 pr w)

/-- Settles O34: a command settles one result, and each kind of result has its own bound in OBUF. -/
theorem commandFrame : Obligations.CommandFrame := by
  intro i s s' h
  obtain ⟨r, hr, rfl⟩ := (exec_next_iff i s s').1 h
  have hspec := commandResult_spec hr
  refine ⟨s.settle_frame r, ?_, State.settle_obuf_of_err⟩
  cases i with
  | encode pr w => exact State.settle_obuf_of_number hspec (.inr ⟨pr, w, rfl⟩)
  | csum => exact State.settle_obuf_of_number hspec (.inl rfl)
  | tcphdr p => exact fun a ha => State.settle_obuf_beyond hspec ha
  | iphdr => exact fun a ha => State.settle_obuf_beyond hspec ha
  | assemble p => exact fun a ha => State.settle_obuf_beyond hspec ha

/-- Settles O36: a CMD write clears the result registers itself, and a command overwrites them. -/
theorem exactlyOneOfDoneAndErr : Obligations.ExactlyOneOfDoneAndErr := by
  constructor
  · intro c s s' h
    obtain ⟨r, rfl, hrun⟩ := runCommand_settles h
    exact ⟨State.settle_done_eq_not_err _ r, fun st v l o => hrun _ rfl⟩
  · intro i s s' h
    obtain ⟨r, hr, rfl⟩ := (exec_next_iff i s s').1 h
    refine ⟨State.settle_done_eq_not_err s r, fun st v l o => (exec_next_iff _ _ _).2 ⟨r, ?_, ?_⟩⟩
    · exact (commandResult_congr i s _ rfl).trans hr
    · exact (s.settle_overwrites st v l o r).symm

/-! ### The resolution mark (R23, R204) -/

/-- R23: the resolution check looks at the two marks alone. -/
theorem resolved_congr {s t : State} (h : s.failMark = t.failMark) : s.resolved = t.resolved := by
  by_cases h0 : t.failMark = 0
  · rw [resolved_of_clear h0, resolved_of_clear (h.trans h0)]
  · rw [resolved_of_failed h0, resolved_of_failed (by rwa [h]), h]

/-- A command reads RSTAT through the resolution check alone. -/
theorem commandResult_withRstat (i : Instr) {s : State} {v : Word}
    (h : State.resolved { s with rstat := v } = s.resolved) :
    commandResult i { s with rstat := v } = commandResult i s := by
  cases i with
  | encode pr w => rfl
  | csum => rfl
  | tcphdr p =>
    have hchecks : tcphdrChecks p { s with rstat := v } = tcphdrChecks p s := by
      rw [tcphdrChecks, h]; rfl
    have hresult : tcphdrResult p { s with rstat := v } = tcphdrResult p s := by
      funext pay; rw [tcphdrResult, h]; rfl
    rw [commandResult, hchecks, hresult]; rfl
  | iphdr =>
    have hresult : iphdrResult { s with rstat := v } = iphdrResult s := by
      rw [iphdrResult, h]; rfl
    rw [commandResult, hresult]; rfl
  | assemble p =>
    have hchecks : assembleChecks p { s with rstat := v } = assembleChecks p s := by
      rw [assembleChecks, h]; rfl
    have hresult : assembleResult p { s with rstat := v } = assembleResult p s := by
      funext pay; rw [assembleResult, h]; rfl
    rw [commandResult, hchecks, hresult]; rfl

/-- Where the check ahead of the read reports what the whole command reports, nothing hangs on the bytes. -/
theorem inputResult_of_error {α : Type} {input : Except Nat (List Byte)} {checks : Except Error α}
    {build : List Byte → Except Error Result} {e : Error} (hchecks : checks = .error e)
    (hbuild : ∀ bs, build bs = .error e) : inputResult input checks build = .ok (.error e) := by
  cases input with
  | ok bs => exact congrArg Except.ok (hbuild bs)
  | error k => subst hchecks; rfl

/-- R204: the three commands that build a header report a failed resolution before they look at anything else. -/
theorem commandResult_of_unresolved {i : Instr} (hi : i ≠ .csum ∧ ∀ pr w, i ≠ .encode pr w) {s : State} {e : Error}
    (h : s.resolved = .error e) : commandResult i s = .ok (.error e) := by
  cases i with
  | encode pr w => exact absurd rfl (hi.2 pr w)
  | csum => exact absurd rfl hi.1
  | tcphdr p => exact inputResult_of_error (by rw [tcphdrChecks, h]) (fun pay => by rw [tcphdrResult, h])
  | iphdr => rw [commandResult, iphdrResult, h]
  | assemble p => exact inputResult_of_error (by rw [assembleChecks, h]) (fun pay => by rw [assembleResult, h])

/-- With a mark set no command reads the addresses. -/
theorem commandResult_withAddresses (i : Instr) {s : State} (h : s.failMark ≠ 0) (a a' : Word) :
    commandResult i { s with srcaddr := a, dstaddr := a' } = commandResult i s := by
  have hs := resolved_of_failed h
  have ht : State.resolved { s with srcaddr := a, dstaddr := a' } =
    .error (.addressResolution (BitVec.ofNat 8 s.failMark)) := hs
  have hbuilder : ∀ j : Instr, (j ≠ .csum ∧ ∀ pr w, j ≠ .encode pr w) →
      commandResult j { s with srcaddr := a, dstaddr := a' } = commandResult j s := fun j hj =>
    (commandResult_of_unresolved hj ht).trans (commandResult_of_unresolved hj hs).symm
  cases i with
  | encode pr w => rfl
  | csum => rfl
  | tcphdr p => exact hbuilder _ (by simp)
  | iphdr => exact hbuilder _ (by simp)
  | assemble p => exact hbuilder _ (by simp)

/-- Settles O41: RSTAT is read by the resolution check alone, and the addresses only once it has passed. -/
theorem onlyTheTwoMarksOfRstatMatter : Obligations.OnlyTheTwoMarksOfRstatMatter := by
  constructor
  · intro i s s' v hv h
    obtain ⟨r, hr, rfl⟩ := (exec_next_iff i s s').1 h
    have hsame : commandResult i { s with rstat := v } = commandResult i s :=
      commandResult_withRstat i (resolved_congr hv)
    exact (exec_next_iff _ _ _).2 ⟨r, hsame.trans hr, (s.settle_withRstat v r).symm⟩
  · intro i s s' a a' hmark h
    obtain ⟨r, hr, rfl⟩ := (exec_next_iff i s s').1 h
    have hsame : commandResult i { s with srcaddr := a, dstaddr := a' } = commandResult i s :=
      commandResult_withAddresses i hmark a a'
    exact (exec_next_iff _ _ _).2 ⟨r, hsame.trans hr, (s.settle_withAddresses a a' r).symm⟩

end Sys2Proof.Machine
end

section
/-! What one step does for each write of an input, for a CMD write, and for reset (R25, R31, R36, R37). -/

namespace Sys2Proof.Machine

/-- Settles O44: the state a command starts from is `beginCommand` of the state in which the access has been taken. -/
theorem cmdWriteRunsTheDecodedCommand : Obligations.CmdWriteRunsTheDecodedCommand := by
  intro s c rest hp
  have hstep : step s = runCommand c (s.issue rest) := step_of_pending hp
  exact ⟨fun i hi => hstep.trans (runCommand_of_decode_ok hi _),
    fun w hw => hstep.trans (runCommand_of_decode_error hw _)⟩

/-- Settles O46: operand registers and PBUF through their writes' own laws, CMD through `cmdWriteRunsTheDecodedCommand`. -/
theorem inputWritesInvalidate : Obligations.InputWritesInvalidate := by
  intro s rest
  refine ⟨fun r v hp hr => ?_, fun i b hp => ?_, fun c hp => cmdWriteRunsTheDecodedCommand s c rest hp⟩
  · have hop : r.isOperand = true := decide_eq_true (by omega)
    have hcmd : r ≠ .cmd := by rintro rfl; cases hop
    refine ⟨(s.issue rest).writeReg r v, (step_of_pending hp).trans (perform_writeReg hcmd v _), ?_,
      (s.issue rest).writeReg_operand_clears hop v⟩
    rw [State.readReg_writeReg _ r r v hop, if_pos rfl]
  · exact ⟨(s.issue rest).writeBuf i.val b, step_of_pending hp, Memory.read_write_same s.pbuf i.val b,
      rfl, rfl, rfl, rfl⟩

/-- R36: after reset every register reads 0. -/
theorem State.readReg_resetWith (cfg : Config) (r : Reg) : (State.resetWith cfg).readReg r = 0 := by
  cases r <;> rfl

/-- Settles O51: reset leaves no register and no cell set, and DONE 0 closes the gate. -/
theorem resetLeavesTheResetState : Obligations.ResetLeavesTheResetState := by
  intro s rest hp
  refine ⟨(s.issue rest).applyReset, step_of_pending hp, fun r => ?_, rfl, rfl, rfl, fun a => rfl, fun k => ?_⟩
  · exact State.readReg_resetWith s.cfg r
  · exact (outputGateShowsOnlyTheResult _ k).1 (.inl (by simp [State.done]))

/-- Settles O52: OPEN as it is, IP_ID is a 16-bit constant. -/
theorem machineResetValues : Obligations.MachineResetValues :=
  ⟨State.readReg_resetWith Config.standard, rfl, rfl, rfl, rfl, rfl, rfl, Config.openIpId.isLt⟩

end Sys2Proof.Machine
end

section
/-! R55, R105, R126, R166: a command's result is made of the operands its rule lists. The two header builders first,
then the bytes read from PBUF, then the five commands. -/

namespace Sys2Proof.Machine

/-! ### What two states that agree on a command's operands share -/

/-- The operands of ASSEMBLE are those of its two builders together (R180). -/
theorem SameOperands.builders {p : Place} {s t : State} (h : SameOperands (.assemble p) s t) :
    SameOperands .iphdr s t ∧ SameOperands (.tcphdr p) s t := by
  obtain ⟨hid, httl, hipw, hwindow, hsrc, hdst, hrstat, hsport, hdport, hseq, hackn, hplen, hpbuf⟩ := h
  exact ⟨⟨hid, httl, hipw, hsrc, hdst, hrstat, hplen⟩,
    hwindow, hsrc, hdst, hrstat, hsport, hdport, hseq, hackn, hplen, hpbuf⟩

theorem resolved_congr_of_rstat {s t : State} (h : s.rstat = t.rstat) : s.resolved = t.resolved := by
  rw [State.resolved, State.resolved, h]

/-- R166: the IPv4 builder reads the addresses, PLEN and its part of the configuration. -/
theorem ipBuild_congr {s t : State} (h : SameOperands .iphdr s t) : ipBuild s = ipBuild t := by
  obtain ⟨hid, httl, hipw, hsrc, hdst, -, hplen⟩ := h
  have htotal : totalLength s = totalLength t := by rw [totalLength, totalLength, hplen]
  have himage : ipImage s = ipImage t := by
    funext total c
    rw [ipImage, ipImage, ipFields, ipFields, hid, httl, hipw, hsrc, hdst]
  rw [ipBuild, ipBuild, htotal, himage, hipw]

section TcpBuilder
variable {p : Place} {s t : State} (h : SameOperands (.tcphdr p) s t)
include h

theorem tcpResolved_congr : s.resolved = t.resolved := by
  obtain ⟨-, -, -, hrstat, -⟩ := h
  exact resolved_congr_of_rstat hrstat

theorem tcpImage_congr : tcpImage s = tcpImage t := by
  obtain ⟨hwindow, -, -, -, hsport, hdport, hseq, hackn, -, -⟩ := h
  funext fl c
  rw [tcpImage, tcpImage, tcpFields, tcpFields, hwindow, hsport, hdport, hseq, hackn]

theorem tcpPrepare_congr : tcpPrepare p s = tcpPrepare p t := by
  have himage := tcpImage_congr h
  obtain ⟨-, hsrc, hdst, -, -, -, -, -, hplen, -⟩ := h
  have hpseudo : pseudoFields s = pseudoFields t := by
    rw [pseudoFields, pseudoFields, hsrc, hdst, hplen]
  rw [tcpPrepare, tcpPrepare, himage, hpseudo]

/-- R143: over one payload the TCP builder reads the listed registers and WINDOW. -/
theorem tcpBuild_congr (pay : List Byte) : tcpBuild p s pay = tcpBuild p t pay := by
  have hprepare := tcpPrepare_congr h
  have himage := tcpImage_congr h
  obtain ⟨-, -, -, -, -, -, -, -, hplen, -⟩ := h
  have hpad : tcpPad s = tcpPad t := by rw [tcpPad, tcpPad, hplen]
  rw [tcpBuild, tcpBuild, hprepare, himage, hpad]

theorem payload_congr (hs : Memory.wf s.pbuf) (ht : Memory.wf t.pbuf) : s.payload = t.payload := by
  obtain ⟨-, -, -, -, -, -, -, -, hplen, hpbuf⟩ := h
  rw [State.payload, State.payload, ← hplen]
  exact Memory.readBlock_congr hs ht (fun k hk => by rw [Nat.zero_add, hpbuf k hk])

end TcpBuilder

theorem csumInput_congr {s t : State} (h : SameOperands .csum s t) (hs : Memory.wf s.pbuf) (ht : Memory.wf t.pbuf) :
    s.csumInput = t.csumInput := by
  obtain ⟨hclen, hpbuf⟩ := h
  rw [State.csumInput, State.csumInput, ← hclen]
  exact Memory.readBlock_congr hs ht (fun k hk => by rw [Nat.zero_add, hpbuf k hk])

/-! ### The result, and what the host sees of it -/

/-- Two states that agree on a command's operands give it one result, or stop it at one unwritten byte. -/
theorem commandResult_of_sameOperands {i : Instr} {s t : State} (hs : Memory.wf s.pbuf) (ht : Memory.wf t.pbuf)
    (h : SameOperands i s t) : commandResult i s = commandResult i t := by
  cases i with
  | encode pr w =>
    have hval : s.val = t.val := h
    rw [commandResult, commandResult, encodeResult, encodeResult, hval]
  | csum =>
    have hinput := csumInput_congr h hs ht
    obtain ⟨hclen, -⟩ := h
    have hchecks : csumChecks s = csumChecks t := by rw [csumChecks, csumChecks, hclen]
    have hresult : csumResult s = csumResult t := by funext bs; rw [csumResult, csumResult, hchecks]
    rw [commandResult, commandResult, hinput, hchecks, hresult]
  | tcphdr p =>
    have hres := tcpResolved_congr h
    have hchecks : tcphdrChecks p s = tcphdrChecks p t := by
      rw [tcphdrChecks, tcphdrChecks, hres, tcpPrepare_congr h]
    have hresult : tcphdrResult p s = tcphdrResult p t := by
      funext pay; rw [tcphdrResult, tcphdrResult, hres, tcpBuild_congr h]
    rw [commandResult, commandResult, payload_congr h hs ht, hchecks, hresult]
  | iphdr =>
    have hbuild := ipBuild_congr h
    obtain ⟨-, -, -, -, -, hrstat, -⟩ := h
    rw [commandResult, commandResult, iphdrResult, iphdrResult, resolved_congr_of_rstat hrstat, hbuild]
  | assemble p =>
    obtain ⟨hip, htcp⟩ := SameOperands.builders h
    have hres := tcpResolved_congr htcp
    have hchecks : assembleChecks p s = assembleChecks p t := by
      rw [assembleChecks, assembleChecks, hres, ipBuild_congr hip, tcpPrepare_congr htcp]
    have hresult : assembleResult p s = assembleResult p t := by
      funext pay; rw [assembleResult, assembleResult, hres, ipBuild_congr hip, tcpBuild_congr htcp]
    rw [commandResult, commandResult, payload_congr htcp hs ht, hchecks, hresult]

/-- One result settled in two states shows the host the same report, registers and output bytes. -/
theorem State.settle_sameResult (s t : State) (r : Except Error Result) :
    (t.settle r).status = (s.settle r).status ∧ (t.settle r).res = (s.settle r).res ∧
      (t.settle r).rlen = (s.settle r).rlen ∧ (t.settle r).olen = (s.settle r).olen ∧
      ∀ k < (s.settle r).olen.toNat, Memory.read (t.settle r).obuf k = Memory.read (s.settle r).obuf k := by
  obtain e | ⟨res, rlen⟩ | bs := r
  · exact ⟨rfl, rfl, rfl, rfl, fun k hk => absurd hk (Nat.not_lt_zero k)⟩
  · exact ⟨rfl, rfl, rfl, rfl, fun k hk => absurd hk (Nat.not_lt_zero k)⟩
  · refine ⟨rfl, rfl, rfl, rfl, fun k hk => ?_⟩
    have hlt : k < bs.length := hk.trans_le ((BitVec.toNat_ofNat _ _).trans_le (Nat.mod_le _ _))
    have hinside : ∀ m : Memory, Memory.read (Memory.writeBlock m 0 bs) k = bs[k]? := fun m => by
      simpa using Memory.read_writeBlock_inside m 0 bs hlt
    exact (hinside t.obuf).trans (hinside s.obuf).symm

/-- Settles O42: the command comes to one result in both states, and the host sees nothing else of them. -/
theorem resultsDependOnOperandsAlone : Obligations.ResultsDependOnOperandsAlone := by
  intro i s t s' hs ht h hexec
  obtain ⟨r, hr, rfl⟩ := (exec_next_iff i s s').1 hexec
  have hrt : commandResult i t = .ok r := (commandResult_of_sameOperands hs ht h).symm.trans hr
  exact ⟨t.settle r, (exec_next_iff i t _).2 ⟨r, hrt, rfl⟩, s.settle_sameResult t r⟩

end Sys2Proof.Machine
end

section
/-! The host port (R28, R52, R53, R55): which register an access reaches, the effect of every access but a CMD write,
and the queue they are taken from. -/

namespace Sys2Proof.Machine

/-! ### Writes -/

/-- R24: a write to register 11 to 15 changes nothing. -/
theorem perform_writeReg_readOnly {r : Reg} (h : 11 ≤ r.number) (v : Word) (s : State) :
    perform (.writeReg r v) s = .next s := by
  have hcmd : r ≠ .cmd := by rintro rfl; exact absurd h (by decide)
  have hop : r.isOperand = false := decide_eq_false (by omega)
  rw [perform_writeReg hcmd, s.writeReg_readOnly r v hop]

/-! ### What a read answers -/

/-- R24: register 15 reads 0. -/
theorem State.readReg_eq_ite (s : State) (r : Reg) : s.readReg r = if r = .reserved then 0 else s.readReg r := by
  split
  case isTrue h => rw [h]; rfl
  case isFalse => rfl

@[simp] theorem State.readReg_issue (s : State) (rest : List HostEvent) (r : Reg) :
    (s.issue rest).readReg r = s.readReg r := by
  cases r <;> rfl

theorem Memory.answer_of_written {m : Memory} {a : Nat} {b : Byte} (h : Memory.read m a = some b) :
    Memory.answer m a = .byte b := by
  rw [Memory.answer, h]

theorem Memory.answer_of_unwritten {m : Memory} {a : Nat} (h : Memory.read m a = none) :
    Memory.answer m a = .unspecified := by
  rw [Memory.answer, h]

/-- R28: behind an open gate the host sees the cell. -/
theorem State.readOut_of_open {s : State} {k : Nat} (hdone : s.done = true) (hk : k < s.olen.toNat) :
    s.readOut k = Memory.answer s.obuf k := by
  rw [State.readOut, if_pos (by rw [hdone, decide_eq_true hk]; rfl)]

/-! ### The obligations about single accesses -/

/-- Settles O45: a write of an operand register by its own laws, the other accesses as what they store or answer. -/
theorem hostAccessesHaveTheirEffects : Obligations.HostAccessesHaveTheirEffects := by
  intro s rest
  refine ⟨fun r v hp hr => ?_, fun r v hp hr => ?_, fun r hp => ?_, fun i b hp => ?_, fun i b hp hb => ?_,
    fun i hp hb => ?_, fun i hp hclosed => ?_, fun i b hp hdone hi hb => ?_, fun i hp hdone hi hb => ?_⟩
  · have hop : r.isOperand = true := decide_eq_true hr
    have hcmd : r ≠ .cmd := by rintro rfl; cases hop
    have hread := fun q => (s.issue rest).readReg_writeReg r q v hop
    obtain ⟨hstatus, hres, hrlen, holen⟩ := (s.issue rest).writeReg_operand_clears hop v
    obtain ⟨hcfg, -, hpbuf, hobuf, hpending, hanswer⟩ := (s.issue rest).writeReg_frame r v
    refine ⟨(s.issue rest).writeReg r v, (step_of_pending hp).trans (perform_writeReg hcmd v _), ?_, ?_,
      hstatus, hres, hrlen, holen, hpbuf, hobuf, hcfg, hpending, hanswer⟩
    · rw [hread, if_pos rfl]
    · intro q hne hq
      rw [hread, if_neg hne, if_pos hq, State.readReg_issue]
  · exact (step_of_pending hp).trans (perform_writeReg_readOnly hr v _)
  · rw [← s.readReg_eq_ite r, ← s.readReg_issue rest r]
    exact step_of_pending hp
  · exact ⟨(s.issue rest).writeBuf i.val b, step_of_pending hp, Memory.read_write_same s.pbuf i.val b,
      fun a ha => Memory.read_write_other s.pbuf b ha, rfl⟩
  · rw [← Memory.answer_of_written hb]; exact step_of_pending hp
  · rw [← Memory.answer_of_unwritten hb]; exact step_of_pending hp
  · rw [← (outputGateShowsOnlyTheResult s i.val).1 hclosed]; exact step_of_pending hp
  · rw [← Memory.answer_of_written hb, ← State.readOut_of_open hdone hi]
    exact step_of_pending hp
  · rw [← Memory.answer_of_unwritten hb, ← State.readOut_of_open hdone hi]
    exact step_of_pending hp

/-- Settles O50: by the kinds of access; only a write to registers 11 to 15 and the three reads are left. -/
theorem readsHaveNoSideEffect : Obligations.ReadsHaveNoSideEffect := by
  intro s a rest hp hreg hbuf
  have hstep : step s = perform a (s.issue rest) := step_of_pending hp
  cases a with
  | writeReg r v => exact ⟨none, hstep.trans (perform_writeReg_readOnly (hreg r v rfl) v _)⟩
  | readReg r => exact ⟨_, hstep⟩
  | writeBuf i b => exact absurd rfl (hbuf i b)
  | readBuf i => exact ⟨_, hstep⟩
  | readOut i => exact ⟨_, hstep⟩

/-! ### The queue -/

theorem runCommand_pending {c : Word} {s s' : State} (h : runCommand c s = .next s') : s'.pending = s.pending := by
  obtain ⟨r, rfl, -⟩ := runCommand_settles h
  rw [State.settle_frame]
  rfl

/-- R55: an access that takes effect leaves the accesses after it as they are. -/
theorem perform_pending {a : HostAccess} {s s' : State} (h : perform a s = .next s') : s'.pending = s.pending := by
  obtain ⟨c, -, hc⟩ | ⟨r, v, -, -, rfl⟩ | ⟨i, b, -, rfl⟩ | ⟨ans, rfl⟩ := perform_cases h
  · exact runCommand_pending hc
  · obtain ⟨-, -, -, -, hpending, -⟩ := s.writeReg_frame r v
    exact hpending
  · rfl
  · rfl

/-- Settles O48: a step takes the head of the queue, and neither reset nor an access touches the rest. -/
theorem accessesTakeEffectOneAtATime : Obligations.AccessesTakeEffectOneAtATime := by
  refine ⟨fun s hp => by rw [step, hp], fun s s' h => ?_⟩
  obtain ⟨hp, rfl⟩ | ⟨e, rest, hp, ⟨-, rfl⟩ | ⟨a, -, ha⟩⟩ := step_cases h
  · rw [hp, List.tail_nil]
  · rw [hp, List.tail_cons, State.applyReset_pending, State.issue_pending]
  · rw [hp, List.tail_cons, perform_pending ha, State.issue_pending]

/-! ### The bus -/

/-- Settles O57: a register's number is a quarter of its offset from BASE. -/
theorem busAddressReachesItsRegister : Obligations.BusAddressReachesItsRegister := by
  intro cfg r addr
  rw [regAtBusAddress]
  split
  case isTrue h => simp only [reduceCtorEq, false_iff]; omega
  case isFalse h => rw [Reg.ofNumber_eq_some_iff]; omega

end Sys2Proof.Machine
end

section
/-! The command word as arithmetic (R70 to R73): when a word spells a row of the command map, when it decodes to an
instruction, and that this is when it is the instruction's own word. -/

namespace Sys2Proof

/-! ### The fields of a word (R71) -/

/-- A word is its fields: OP, PLACE, PADR, bit 7, WIDTH and bits 31:14. -/
theorem word_eq_iff_fields (a b : Word) :
    a = b ↔ a.toNat % 2 ^ 4 = b.toNat % 2 ^ 4 ∧ a.toNat / 2 ^ 4 % 2 ^ 2 = b.toNat / 2 ^ 4 % 2 ^ 2 ∧
      a.toNat / 2 ^ 6 % 2 ^ 1 = b.toNat / 2 ^ 6 % 2 ^ 1 ∧ a.toNat / 2 ^ 7 % 2 ^ 1 = b.toNat / 2 ^ 7 % 2 ^ 1 ∧
      a.toNat / 2 ^ 8 % 2 ^ 6 = b.toNat / 2 ^ 8 % 2 ^ 6 ∧ a.toNat / 2 ^ 14 = b.toNat / 2 ^ 14 := by
  refine ⟨by rintro rfl; simp, fun h => BitVec.eq_of_toNat_eq ?_⟩
  omega

/-- A mask that takes a field whole leaves it. -/
theorem fields_and_ones (c : Word) :
    c.toNat % 16 &&& 15 = c.toNat % 16 ∧ c.toNat / 16 % 4 &&& 3 = c.toNat / 16 % 4 ∧
      c.toNat / 64 % 2 &&& 1 = c.toNat / 64 % 2 ∧ c.toNat / 128 % 2 &&& 1 = c.toNat / 128 % 2 ∧
      c.toNat / 256 % 64 &&& 63 = c.toNat / 256 % 64 ∧ c.toNat / 16384 &&& 262143 = c.toNat / 16384 := by
  have ones : ∀ n x : Nat, x < 2 ^ n → x &&& 2 ^ n - 1 = x := fun n x => Nat.and_two_pow_sub_one_of_lt_two_pow
  exact ⟨ones 4 _ (by omega), ones 2 _ (by omega), ones 1 _ (by omega), ones 1 _ (by omega), ones 6 _ (by omega),
    ones 18 _ (by omega)⟩

/-! ### The rows of the command map (R72) -/

/-- `c AND mask = match`, field by field. -/
theorem CommandRow.spells_iff_fields (r : CommandRow) (c : Word) :
    r.spells c = true ↔
      c.toNat % 2 ^ 4 &&& r.mask.toNat % 2 ^ 4 = r.pattern.toNat % 2 ^ 4 ∧
      c.toNat / 2 ^ 4 % 2 ^ 2 &&& r.mask.toNat / 2 ^ 4 % 2 ^ 2 = r.pattern.toNat / 2 ^ 4 % 2 ^ 2 ∧
      c.toNat / 2 ^ 6 % 2 ^ 1 &&& r.mask.toNat / 2 ^ 6 % 2 ^ 1 = r.pattern.toNat / 2 ^ 6 % 2 ^ 1 ∧
      c.toNat / 2 ^ 7 % 2 ^ 1 &&& r.mask.toNat / 2 ^ 7 % 2 ^ 1 = r.pattern.toNat / 2 ^ 7 % 2 ^ 1 ∧
      c.toNat / 2 ^ 8 % 2 ^ 6 &&& r.mask.toNat / 2 ^ 8 % 2 ^ 6 = r.pattern.toNat / 2 ^ 8 % 2 ^ 6 ∧
      c.toNat / 2 ^ 14 &&& r.mask.toNat / 2 ^ 14 = r.pattern.toNat / 2 ^ 14 := by
  rw [CommandRow.spells, beq_iff_eq, word_eq_iff_fields]
  simp only [BitVec.toNat_and, Nat.and_div_two_pow, Nat.and_mod_two_pow]

/-- ENCODE's row fixes every bit but PADR and WIDTH. -/
theorem encodeRow_spells_iff (c : Word) :
    encodeRow.spells c = true ↔
      c.toNat % 16 = 1 ∧ c.toNat / 16 % 4 = 0 ∧ c.toNat / 128 % 2 = 0 ∧ c.toNat / 16384 = 0 := by
  simp [CommandRow.spells_iff_fields, encodeRow, fields_and_ones c]

/-- TCPHDR's row fixes every bit but PLACE. -/
theorem tcphdrRow_spells_iff (c : Word) :
    tcphdrRow.spells c = true ↔
      c.toNat % 16 = 3 ∧ c.toNat / 64 % 2 = 0 ∧ c.toNat / 128 % 2 = 0 ∧ c.toNat / 256 % 64 = 0 ∧
        c.toNat / 16384 = 0 := by
  simp [CommandRow.spells_iff_fields, tcphdrRow, fields_and_ones c]

/-- ASSEMBLE's row fixes every bit but PLACE. -/
theorem assembleRow_spells_iff (c : Word) :
    assembleRow.spells c = true ↔
      c.toNat % 16 = 5 ∧ c.toNat / 64 % 2 = 0 ∧ c.toNat / 128 % 2 = 0 ∧ c.toNat / 256 % 64 = 0 ∧
        c.toNat / 16384 = 0 := by
  simp [CommandRow.spells_iff_fields, assembleRow, fields_and_ones c]

/-- CSUM's row fixes every bit. -/
theorem csumRow_spells_iff (c : Word) : csumRow.spells c = true ↔ c.toNat = 2 := by
  rw [CommandRow.spells, beq_iff_eq, ← BitVec.toNat_inj]
  exact Eq.congr_left (congrArg BitVec.toNat BitVec.and_allOnes)

/-- IPHDR's row fixes every bit. -/
theorem iphdrRow_spells_iff (c : Word) : iphdrRow.spells c = true ↔ c.toNat = 4 := by
  rw [CommandRow.spells, beq_iff_eq, ← BitVec.toNat_inj]
  exact Eq.congr_left (congrArg BitVec.toNat BitVec.and_allOnes)

theorem rowOf_mem (i : Instr) : rowOf i ∈ commandMap := by
  cases i <;> simp [rowOf, commandMap]

/-- Each row fixes `OP` to that of its match. -/
theorem spells_op {r : CommandRow} (hr : r ∈ commandMap) {c : Word} (h : r.spells c = true) :
    c.toNat % 16 = r.pattern.toNat := by
  simp only [commandMap, List.mem_cons, List.not_mem_nil, or_false] at hr
  obtain rfl | rfl | rfl | rfl | rfl := hr
  · exact ((encodeRow_spells_iff c).1 h).1
  · rw [(csumRow_spells_iff c).1 h]; rfl
  · exact ((tcphdrRow_spells_iff c).1 h).1
  · rw [(iphdrRow_spells_iff c).1 h]; rfl
  · exact ((assembleRow_spells_iff c).1 h).1

/-- No two rows have one match. -/
theorem commandMap_pattern_injective :
    ∀ r₁ ∈ commandMap, ∀ r₂ ∈ commandMap, r₁.pattern = r₂.pattern → r₁ = r₂ := by decide

/-! ### The decoder, `OP` by `OP` -/

section
variable {c : Word}

theorem decode_of_op_encode (h : c.toNat % 16 = 1) : decode c = decodeEncode c := by
  simp only [decode, opField_eq, h]

theorem decode_of_op_csum (h : c.toNat % 16 = 2) : decode c = decodePlain csumRow .csum c := by
  simp only [decode, opField_eq, h]

theorem decode_of_op_tcphdr (h : c.toNat % 16 = 3) : decode c = decodePlaced tcphdrRow .tcphdr c := by
  simp only [decode, opField_eq, h]

theorem decode_of_op_iphdr (h : c.toNat % 16 = 4) : decode c = decodePlain iphdrRow .iphdr c := by
  simp only [decode, opField_eq, h]

theorem decode_of_op_assemble (h : c.toNat % 16 = 5) : decode c = decodePlaced assembleRow .assemble c := by
  simp only [decode, opField_eq, h]

theorem decode_of_op_none (h : c.toNat % 16 = 0 ∨ 6 ≤ c.toNat % 16) : decode c = .error .noCommand := by
  rw [decode, opField_eq]
  split
  case h_6 => rfl
  all_goals omega

theorem decodeEncode_eq_ok_iff {i : Instr} :
    decodeEncode c = .ok i ↔
      encodeRow.spells c = true ∧ widthField c ≤ wmax ∧ i = .encode (padrField c) (widthField c) := by
  unfold decodeEncode
  split <;> rename_i hrow
  · split <;> rename_i hw <;> simp [hrow, hw, eq_comm]
  · simp [hrow]

theorem decodePlain_eq_ok_iff {row : CommandRow} {i j : Instr} :
    decodePlain row j c = .ok i ↔ row.spells c = true ∧ i = j := by
  unfold decodePlain
  split <;> rename_i hrow <;> simp [hrow, eq_comm]

theorem decodePlaced_eq_ok_iff {row : CommandRow} {mk : Place → Instr} {i : Instr} :
    decodePlaced row mk c = .ok i ↔ row.spells c = true ∧ ∃ p, placeField c = fieldOfPlace p ∧ i = mk p := by
  simp only [← placeOfField_eq_some_iff]
  unfold decodePlaced
  split <;> rename_i hrow
  · cases placeOfField (placeField c) <;> simp [hrow, eq_comm]
  · simp [hrow]

end

/-! ### What a word decodes to -/

/-- The fields of the word are the operands of the instruction (R71). -/
def OperandsStandIn (c : Word) : Instr → Prop
  | .encode padRight width => padrField c = padRight ∧ widthField c = width
  | .csum => True
  | .tcphdr place => placeField c = fieldOfPlace place
  | .iphdr => True
  | .assemble place => placeField c = fieldOfPlace place

/-- R72: a word decodes to an instruction when it spells the instruction's row, holds its operands, and these are
legal. -/
theorem decode_eq_ok_iff (c : Word) (i : Instr) :
    decode c = .ok i ↔ (rowOf i).spells c = true ∧ OperandsStandIn c i ∧ WellFormed i = true := by
  constructor
  · intro h
    have hwf := decode_wellFormed h
    unfold decode at h
    split at h
    · obtain ⟨hrow, -, rfl⟩ := decodeEncode_eq_ok_iff.1 h
      exact ⟨hrow, ⟨rfl, rfl⟩, hwf⟩
    · obtain ⟨hrow, rfl⟩ := decodePlain_eq_ok_iff.1 h
      exact ⟨hrow, trivial, hwf⟩
    · obtain ⟨hrow, p, hp, rfl⟩ := decodePlaced_eq_ok_iff.1 h
      exact ⟨hrow, hp, hwf⟩
    · obtain ⟨hrow, rfl⟩ := decodePlain_eq_ok_iff.1 h
      exact ⟨hrow, trivial, hwf⟩
    · obtain ⟨hrow, p, hp, rfl⟩ := decodePlaced_eq_ok_iff.1 h
      exact ⟨hrow, hp, hwf⟩
    · cases h
  · rintro ⟨hrow, hops, hwf⟩
    cases i with
    | encode pr w =>
      obtain ⟨rfl, rfl⟩ := hops
      rw [decode_of_op_encode (spells_op (rowOf_mem _) hrow)]
      exact decodeEncode_eq_ok_iff.2 ⟨hrow, of_decide_eq_true hwf, rfl⟩
    | csum =>
      rw [decode_of_op_csum (spells_op (rowOf_mem _) hrow)]
      exact decodePlain_eq_ok_iff.2 ⟨hrow, rfl⟩
    | tcphdr p =>
      rw [decode_of_op_tcphdr (spells_op (rowOf_mem _) hrow)]
      exact decodePlaced_eq_ok_iff.2 ⟨hrow, p, hops, rfl⟩
    | iphdr =>
      rw [decode_of_op_iphdr (spells_op (rowOf_mem _) hrow)]
      exact decodePlain_eq_ok_iff.2 ⟨hrow, rfl⟩
    | assemble p =>
      rw [decode_of_op_assemble (spells_op (rowOf_mem _) hrow)]
      exact decodePlaced_eq_ok_iff.2 ⟨hrow, p, hops, rfl⟩

theorem fieldOfPlace_lt (p : Place) : fieldOfPlace p < 3 := by cases p <;> decide

/-- The number of a placed command's word. -/
theorem placedWord_eq_iff {op : Nat} (hop : op < 16) (p : Place) (c : Word) :
    BitVec.ofNat 32 (op + 16 * fieldOfPlace p) = c ↔
      (c.toNat % 16 = op ∧ c.toNat / 64 % 2 = 0 ∧ c.toNat / 128 % 2 = 0 ∧ c.toNat / 256 % 64 = 0 ∧
        c.toNat / 16384 = 0) ∧ c.toNat / 16 % 4 = fieldOfPlace p := by
  have hp := fieldOfPlace_lt p
  rw [← BitVec.toNat_inj, BitVec.toNat_ofNat]
  omega

/-- The encoder's word is the one word that spells the row and holds the operands (R72, R100 to R180). -/
theorem encode_eq_iff {i : Instr} (hwf : WellFormed i = true) (c : Word) :
    encode i = c ↔ (rowOf i).spells c = true ∧ OperandsStandIn c i := by
  cases i with
  | encode pr w =>
    have hw : w ≤ 32 := of_decide_eq_true hwf
    have hpadr : padrField c = pr ↔ c.toNat / 64 % 2 = pr.toNat := by
      rw [padrField_eq]; cases pr <;> simp
    have hpr := pr.toNat_le
    simp only [OperandsStandIn, rowOf, encode, encodeRow_spells_iff, hpadr, widthField_eq]
    rw [← BitVec.toNat_inj, BitVec.toNat_ofNat]
    omega
  | csum =>
    simp only [OperandsStandIn, rowOf, encode, csumRow_spells_iff, and_true]
    rw [eq_comm, ← BitVec.toNat_inj]
    rfl
  | tcphdr p =>
    simp only [OperandsStandIn, rowOf, encode, tcphdrRow_spells_iff, placeField_eq]
    exact placedWord_eq_iff (by decide) p c
  | iphdr =>
    simp only [OperandsStandIn, rowOf, encode, iphdrRow_spells_iff, and_true]
    rw [eq_comm, ← BitVec.toNat_inj]
    rfl
  | assemble p =>
    simp only [OperandsStandIn, rowOf, encode, assembleRow_spells_iff, placeField_eq]
    exact placedWord_eq_iff (by decide) p c

/-- R72, R73: decoder and encoder are inverse to each other on the well-formed instructions. -/
theorem decode_eq_ok_iff_encode (c : Word) (i : Instr) : decode c = .ok i ↔ WellFormed i = true ∧ encode i = c := by
  rw [decode_eq_ok_iff, ← and_assoc, and_comm]
  exact and_congr_right (fun hwf => (encode_eq_iff hwf c).symm)

/-- Settles O1: one direction of `decode_eq_ok_iff_encode`. -/
theorem decodingAnEncodedInstrGivesItBack : Obligations.DecodingAnEncodedInstrGivesItBack :=
  fun i hwf => (decode_eq_ok_iff_encode (encode i) i).2 ⟨hwf, rfl⟩

/-- Settles O2: the other direction. -/
theorem decodedWordIsTheInstrsOwnWord : Obligations.DecodedWordIsTheInstrsOwnWord :=
  fun c i => (decode_eq_ok_iff_encode c i).1

end Sys2Proof
end

section
/-! The command map and the illegal words in their order (R72, R73), and the words and command lines of the spec
(R80). -/

namespace Sys2Proof

/-! ### Rows -/

/-- R82: each value of PLACE below 3 is a placement. -/
theorem exists_fieldOfPlace {n : Nat} (h : n < 3) : ∃ p, n = fieldOfPlace p := by
  obtain rfl | rfl | rfl : n = 0 ∨ n = 1 ∨ n = 2 := by omega
  · exact ⟨.first, rfl⟩
  · exact ⟨.mid, rfl⟩
  · exact ⟨.last, rfl⟩

/-- Settles O3: each row fixes its own `OP`, and `decode_eq_ok_iff` says when a word decodes. -/
theorem commandMapRowsAreDisjointAndDecode : Obligations.CommandMapRowsAreDisjointAndDecode := by
  refine ⟨rfl, fun r₁ h₁ r₂ h₂ c hc₁ hc₂ => ?_, fun c i h => ?_, fun c hrow hw => ?_, fun c hrow => ?_,
    fun c hrow => ?_, fun c p hrow hp => ?_, fun c p hrow hp => ?_⟩
  · have hpattern : r₁.pattern.toNat = r₂.pattern.toNat := (spells_op h₁ hc₁).symm.trans (spells_op h₂ hc₂)
    exact commandMap_pattern_injective r₁ h₁ r₂ h₂ (BitVec.eq_of_toNat_eq hpattern)
  · obtain ⟨hrow, hops, hwf⟩ := (decode_eq_ok_iff c i).1 h
    refine ⟨hrow, ?_, ?_⟩
    · rintro pr w rfl
      obtain ⟨-, rfl⟩ := hops
      rw [← widthField_eq]
      exact of_decide_eq_true hwf
    · intro p hi
      have hp : placeField c = fieldOfPlace p := by obtain rfl | rfl := hi <;> exact hops
      have := fieldOfPlace_lt p
      rw [← placeField_eq]
      omega
  · rw [← padrField_eq, ← widthField_eq]
    rw [← widthField_eq] at hw
    exact (decode_eq_ok_iff _ _).2 ⟨hrow, ⟨rfl, rfl⟩, decide_eq_true hw⟩
  · exact (decode_eq_ok_iff _ _).2 ⟨hrow, trivial, rfl⟩
  · exact (decode_eq_ok_iff _ _).2 ⟨hrow, trivial, rfl⟩
  · exact (decode_eq_ok_iff _ _).2 ⟨hrow, (placeField_eq c).trans hp, rfl⟩
  · exact (decode_eq_ok_iff _ _).2 ⟨hrow, (placeField_eq c).trans hp, rfl⟩

/-! ### Illegal words -/

/-- R73, condition 2: a bit outside `OP` and the fields of the command is 1. -/
def StrayBit (c : Word) : Prop :=
  c.toNat / 128 % 2 ≠ 0 ∨ c.toNat / 16384 ≠ 0 ∨ (c.toNat % 16 = 1 ∧ c.toNat / 16 % 4 ≠ 0) ∨
    ((c.toNat % 16 = 2 ∨ c.toNat % 16 = 4) ∧
      (c.toNat / 16 % 4 ≠ 0 ∨ c.toNat / 64 % 2 ≠ 0 ∨ c.toNat / 256 % 64 ≠ 0)) ∨
    ((c.toNat % 16 = 3 ∨ c.toNat % 16 = 5) ∧ (c.toNat / 64 % 2 ≠ 0 ∨ c.toNat / 256 % 64 ≠ 0))

section
variable {c : Word}

/-- With the `OP` of a row, a word has a stray bit or spells the row. -/
theorem spells_iff_not_strayBit (r : CommandRow) (hop : c.toNat % 16 = r.pattern.toNat)
    (hr : r ∈ commandMap := by simp [commandMap]) : r.spells c = true ↔ ¬ StrayBit c := by
  unfold StrayBit
  simp only [commandMap, List.mem_cons, List.not_mem_nil, or_false] at hr
  obtain rfl | rfl | rfl | rfl | rfl := hr
  · have : c.toNat % 16 = 1 := hop
    rw [encodeRow_spells_iff]; omega
  · have : c.toNat % 16 = 2 := hop
    rw [csumRow_spells_iff]; omega
  · have : c.toNat % 16 = 3 := hop
    rw [tcphdrRow_spells_iff]; omega
  · have : c.toNat % 16 = 4 := hop
    rw [iphdrRow_spells_iff]; omega
  · have : c.toNat % 16 = 5 := hop
    rw [assembleRow_spells_iff]; omega

theorem op_cases (h₁ : 1 ≤ c.toNat % 16) (h₅ : c.toNat % 16 ≤ 5) :
    c.toNat % 16 = 1 ∨ c.toNat % 16 = 2 ∨ c.toNat % 16 = 3 ∨ c.toNat % 16 = 4 ∨ c.toNat % 16 = 5 := by omega

/-- R73, condition 2. -/
theorem decode_of_strayBit (h₁ : 1 ≤ c.toNat % 16) (h₅ : c.toNat % 16 ≤ 5) (hstray : StrayBit c) :
    decode c = .error .mustBeZero := by
  have not_spells : ∀ {r : CommandRow}, (r.spells c = true ↔ ¬ StrayBit c) → ¬ r.spells c = true := fun hr hspells =>
    hr.1 hspells hstray
  obtain h | h | h | h | h := op_cases h₁ h₅
  · rw [decode_of_op_encode h, decodeEncode, if_neg (not_spells (spells_iff_not_strayBit encodeRow h))]
  · rw [decode_of_op_csum h, decodePlain, if_neg (not_spells (spells_iff_not_strayBit csumRow h))]
  · rw [decode_of_op_tcphdr h, decodePlaced, if_neg (not_spells (spells_iff_not_strayBit tcphdrRow h))]
  · rw [decode_of_op_iphdr h, decodePlain, if_neg (not_spells (spells_iff_not_strayBit iphdrRow h))]
  · rw [decode_of_op_assemble h, decodePlaced, if_neg (not_spells (spells_iff_not_strayBit assembleRow h))]

/-- R73, condition 3. -/
theorem decodePlaced_of_place_three {row : CommandRow} {mk : Place → Instr} (hrow : row.spells c = true)
    (hplace : c.toNat / 16 % 4 = 3) : decodePlaced row mk c = .error .placement := by
  simp only [decodePlaced, if_pos hrow, placeField_eq, hplace, placeOfField]

/-- R73, condition 3 in the two commands that have a PLACE. -/
theorem decode_of_place_three (hop : c.toNat % 16 = 3 ∨ c.toNat % 16 = 5) (hstray : ¬ StrayBit c)
    (hplace : c.toNat / 16 % 4 = 3) : decode c = .error .placement := by
  obtain h | h := hop
  · rw [decode_of_op_tcphdr h]
    exact decodePlaced_of_place_three ((spells_iff_not_strayBit tcphdrRow h).2 hstray) hplace
  · rw [decode_of_op_assemble h]
    exact decodePlaced_of_place_three ((spells_iff_not_strayBit assembleRow h).2 hstray) hplace

/-- R73, condition 4. -/
theorem decode_of_wide (hop : c.toNat % 16 = 1) (hstray : ¬ StrayBit c) (hwidth : 32 < c.toNat / 256 % 64) :
    decode c = .error .width := by
  have hrow : encodeRow.spells c = true := (spells_iff_not_strayBit encodeRow hop).2 hstray
  rw [decode_of_op_encode hop, decodeEncode, if_pos hrow, widthField_eq, if_neg (Nat.not_le.2 hwidth)]

/-- R73: a word to which no condition applies is a command. -/
theorem exists_decode (h₁ : 1 ≤ c.toNat % 16) (h₅ : c.toNat % 16 ≤ 5) (hstray : ¬ StrayBit c)
    (hplace : c.toNat % 16 = 3 ∨ c.toNat % 16 = 5 → c.toNat / 16 % 4 ≠ 3)
    (hwidth : c.toNat % 16 = 1 → c.toNat / 256 % 64 ≤ 32) : ∃ i, decode c = .ok i := by
  obtain ⟨-, -, -, hencode, hcsum, hiphdr, htcphdr, hassemble⟩ := commandMapRowsAreDisjointAndDecode
  obtain h | h | h | h | h := op_cases h₁ h₅
  · exact ⟨_, hencode c ((spells_iff_not_strayBit encodeRow h).2 hstray) (hwidth h)⟩
  · exact ⟨_, hcsum c ((spells_iff_not_strayBit csumRow h).2 hstray)⟩
  · have := hplace (.inl h)
    obtain ⟨p, hp⟩ := exists_fieldOfPlace (n := c.toNat / 16 % 4) (by omega)
    exact ⟨_, htcphdr c p ((spells_iff_not_strayBit tcphdrRow h).2 hstray) hp⟩
  · exact ⟨_, hiphdr c ((spells_iff_not_strayBit iphdrRow h).2 hstray)⟩
  · have := hplace (.inr h)
    obtain ⟨p, hp⟩ := exists_fieldOfPlace (n := c.toNat / 16 % 4) (by omega)
    exact ⟨_, hassemble c p ((spells_iff_not_strayBit assembleRow h).2 hstray) hp⟩

end

end Sys2Proof

namespace Sys2Proof.Machine

/-- R73, R206: an illegal word leaves CMD and its report. -/
theorem runCommand_of_illegal {c : Word} {w : IllegalWord} (h : decode c = .error w) (s : State) :
    runCommand c s = .next (State.reporting { s with cmd := c } (statusError (.illegalCommand w.errfield))) :=
  runCommand_of_decode_error h s

/-- R121: a CLEN beyond PBUF is reported, whatever PBUF holds. -/
theorem exec_csum_of_long {s : State} (h : 524288 < s.clen.toNat) :
    exec .csum s = .next (s.raise (.illegalCommand 5)) := by
  have hchecks : csumChecks s = .error (.illegalCommand 5) := if_pos h
  have hresult : commandResult .csum s = .ok (.error (.illegalCommand 5)) :=
    inputResult_of_error hchecks (fun bs => by rw [csumResult, hchecks])
  exact (exec_next_iff _ _ _).2 ⟨_, hresult, rfl⟩

/-- Settles O4: `decode` tries the conditions in the order of R73, and CSUM tries CLEN before it reads a byte. -/
theorem illegalWordsAreReportedInOrder : Obligations.IllegalWordsAreReportedInOrder := by
  refine fun c s => ⟨fun hop => ?_, fun h₁ h₅ hstray => ?_, fun hop hstray hplace => ?_, fun hop hstray hwidth => ?_,
    fun hop hstray hclen => ?_, fun h₁ h₅ hstray hplace hwidth => ?_⟩
  · exact runCommand_of_illegal (decode_of_op_none hop) s
  · exact runCommand_of_illegal (decode_of_strayBit h₁ h₅ hstray) s
  · exact runCommand_of_illegal (decode_of_place_three hop hstray hplace) s
  · exact runCommand_of_illegal (decode_of_wide hop hstray hwidth) s
  · have hrow : csumRow.spells c = true := (spells_iff_not_strayBit csumRow hop).2 hstray
    obtain ⟨-, -, -, -, hcsum, -⟩ := commandMapRowsAreDisjointAndDecode
    rw [runCommand_of_decode_ok (hcsum c hrow)]
    exact exec_csum_of_long hclen
  · exact exists_decode h₁ h₅ hstray (by omega) (by omega)

/-! ### Words and lines written out -/

/-- Settles O5: each word is the encoder's for its instruction. -/
theorem commandWordsOfTheSpecDecode : Obligations.CommandWordsOfTheSpecDecode :=
  have decodes : ∀ i, WellFormed i = true → decode (encode i) = .ok i := decodingAnEncodedInstrGivesItBack
  ⟨decodes (.encode false 4) rfl, decodes (.encode true 4) rfl, decodes .csum rfl, decodes (.tcphdr .first) rfl,
    decodes (.tcphdr .mid) rfl, decodes (.tcphdr .last) rfl, decodes .iphdr rfl, decodes (.assemble .first) rfl,
    decodes (.assemble .last) rfl⟩

/-- A command line is the CMD write of the encoder's word (R80). -/
theorem AsmLine.accesses_command {i : Instr} (h : WellFormed i = true) :
    AsmLine.accesses (.command i) = some [.writeReg .cmd (encode i)] :=
  if_pos h

/-- Settles O58: the encoder's words, with PADR 0 or 1 put in. -/
theorem commandLinesStandForTheirWords : Obligations.CommandLinesStandForTheirWords :=
  ⟨fun _ hw => AsmLine.accesses_command (decide_eq_true hw), fun _ hw => AsmLine.accesses_command (decide_eq_true hw),
    AsmLine.accesses_command rfl, fun _ => AsmLine.accesses_command rfl, AsmLine.accesses_command rfl,
    fun _ => AsmLine.accesses_command rfl⟩

end Sys2Proof.Machine
end

section
/-! Bytes of a header where the fields have the default widths: the two addresses stand in bytes 12 to 19 of the IPv4
header, highest byte first (R74, R79). -/

namespace Sys2Proof.Machine

/-! ### A register as four bytes (R22, R51) -/

/-- R22: the value of a dotted quad. -/
theorem dottedQuad_toNat (a b c d : Byte) :
    (dottedQuad a b c d).toNat = a.toNat * 2 ^ 24 + b.toNat * 2 ^ 16 + c.toNat * 2 ^ 8 + d.toNat := by
  have append_toNat : ∀ {n : Nat} (x : BitVec n) (y : Byte), (x ++ y).toNat = x.toNat * 2 ^ 8 + y.toNat := fun x y => by
    rw [BitVec.toNat_append, ← Nat.shiftLeft_add_eq_or_of_lt y.isLt, Nat.shiftLeft_eq]
  simp only [dottedQuad, append_toNat]
  ring

/-- R79: the octets of an address, highest first, are the bits of its register value. -/
theorem spell_dottedQuad (a b c d : Byte) : spell 32 (dottedQuad a b c d).toNat = bitsOf [a, b, c, d] := by
  refine eq_of_num_eq (by simp) ?_
  rw [num_spell_of_lt (dottedQuad a b c d).isLt, dottedQuad_toNat]
  simp only [bitsOf_cons, bitsOf_nil, num_append, num_nil, spell_length, List.length_append, List.length_nil,
    num_spell_of_lt (BitVec.isLt _)]
  ring

theorem bytesOf_spell_dottedQuad (a b c d : Byte) : bytesOf (spell 32 (dottedQuad a b c d).toNat) = [a, b, c, d] := by
  rw [spell_dottedQuad, bytesOf_bitsOf]

/-! ### The last two fields of the IPv4 header -/

/-- With the default widths the image ends with the two addresses, after 12 other bytes (R74). -/
theorem ipImage_bytes {s : State} {total c : Nat} {h : BitString} (hw : s.cfg.ipw = IpWidths.standard)
    (himage : ipImage s total c = .ok h) :
    ∃ front : List Byte, front.length = 12 ∧
      bytesOf h = front ++ bytesOf (spell 32 s.srcaddr.toNat) ++ bytesOf (spell 32 s.dstaddr.toNat) := by
  obtain ⟨-, rfl⟩ := encFields_ok himage
  have hlen : (((ipFields s total c).take 11).flatMap HeaderField.image).length = 96 := by
    rw [fields_length]
    simp [ipFields, hw, IpWidths.standard, HeaderField.bitCount]
  have hlast : ((ipFields s total c).drop 11).flatMap HeaderField.image =
      spell 32 s.srcaddr.toNat ++ spell 32 s.dstaddr.toNat := by
    simp [ipFields, hw, IpWidths.standard, HeaderField.image, HeaderField.bitCount]
  refine ⟨bytesOf (((ipFields s total c).take 11).flatMap HeaderField.image), by rw [bytesOf_length, hlen], ?_⟩
  rw [List.append_assoc, ← bytesOf_append (by simp), ← hlast, ← bytesOf_append (by rw [hlen]), ← List.flatMap_append,
    List.take_append_drop]

/-- DONE is the mark of a result (R30). -/
theorem State.settle_done {s : State} {r : Except Error Result} (h : (s.settle r).done = true) :
    ∃ res, r = .ok res := by
  cases r with
  | ok res => exact ⟨res, rfl⟩
  | error e =>
    obtain ⟨hclear, -⟩ := flags_of_error (s.raise_status e)
    exact absurd h (Bool.eq_false_iff.1 hclear)

theorem iphdrResult_ok {s : State} {res : Result} (h : iphdrResult s = .ok res) :
    ∃ bits, ipBuild s = .ok bits ∧ res = .output (bytesOf bits) := by
  unfold iphdrResult at h
  split at h
  · cases h
  · split at h
    · cases h
    · rename_i bits hbuild
      exact ⟨bits, hbuild, (Except.ok.inj h).symm⟩

/-- R160: an IPHDR that succeeds leaves the bytes of `ip_build` in OBUF. -/
theorem exec_iphdr_done {s s' : State} (hexec : exec .iphdr s = .next s') (hdone : s'.done = true) :
    ∃ bits, ipBuild s = .ok bits ∧ s' = s.finishOutput (bytesOf bits) := by
  obtain ⟨r, hr, rfl⟩ := (exec_next_iff _ _ _).1 hexec
  obtain ⟨res, rfl⟩ := State.settle_done hdone
  obtain ⟨bits, hbuild, rfl⟩ := iphdrResult_ok (Except.ok.inj hr)
  exact ⟨bits, hbuild, rfl⟩

/-- With the default widths, bytes 12 to 19 that IPHDR leaves are the two addresses. -/
theorem exec_iphdr_addresses {s s' : State} (hw : s.cfg.ipw = IpWidths.standard) (hexec : exec .iphdr s = .next s')
    (hdone : s'.done = true) {k : Nat} (hk : k < 4) :
    Memory.read s'.obuf (12 + k) = (bytesOf (spell 32 s.srcaddr.toNat))[k]? ∧
      Memory.read s'.obuf (16 + k) = (bytesOf (spell 32 s.dstaddr.toNat))[k]? := by
  obtain ⟨h, hbuild, rfl⟩ := exec_iphdr_done hexec hdone
  obtain ⟨-, -, hlen, -, h0, -, -, himage⟩ := ipBuild_ok hbuild
  obtain ⟨front, hfront, hbytes⟩ := ipImage_bytes hw himage
  have hread : ∀ j < 20, Memory.read (s.finishOutput (bytesOf h)).obuf j = (bytesOf h)[j]? := fun j hj => by
    simpa using Memory.read_writeBlock_inside s.obuf 0 (bytesOf h) (k := j) (by rw [bytesOf_length, hlen]; exact hj)
  rw [hread _ (by omega), hread _ (by omega), hbytes]
  constructor
  · rw [List.append_assoc, List.getElem?_append_right (by omega), hfront, Nat.add_sub_cancel_left,
      List.getElem?_append_left (by simpa using hk)]
  · rw [List.getElem?_append_right (by simp [hfront]), List.length_append, hfront, bytesOf_length, spell_length,
      Nat.add_sub_cancel_left]

/-- Settles O25: the register value of an address spells its octets, and the header holds those bits. -/
theorem addressesStandInOctetOrder : Obligations.AddressesStandInOctetOrder := by
  intro a b c d s s' hw hexec hdone
  have haddr := fun k (hk : k < 4) => exec_iphdr_addresses hw hexec hdone hk
  refine ⟨dottedQuad_toNat a b c d, fun hsrc => ?_, fun hdst => ?_⟩
  · have hbyte : ∀ k < 4, Memory.read s'.obuf (12 + k) = [a, b, c, d][k]? := fun k hk => by
      rw [(haddr k hk).1, hsrc, bytesOf_spell_dottedQuad]
    exact ⟨hbyte 0 (by decide), hbyte 1 (by decide), hbyte 2 (by decide), hbyte 3 (by decide)⟩
  · have hbyte : ∀ k < 4, Memory.read s'.obuf (16 + k) = [a, b, c, d][k]? := fun k hk => by
      rw [(haddr k hk).2, hdst, bytesOf_spell_dottedQuad]
    exact ⟨hbyte 0 (by decide), hbyte 1 (by decide), hbyte 2 (by decide), hbyte 3 (by decide)⟩

end Sys2Proof.Machine
end

section
/-! The bit-field packer (R100 to R106): what `enc` gives for each padding, its length and its number for every width,
when it gives nothing, and ENCODE, which leaves that number and length. -/

namespace Sys2Proof.Machine

/-! ### The shortest spelling (R8) -/

theorem zeros_append_zeros (m n : Nat) : zeros m ++ zeros n = zeros (m + n) := List.replicate_append_replicate

/-- A number other than 0 begins with a 1. -/
theorem bin_head {v : Nat} (h : v ≠ 0) : (bin v).head? = some true := by
  rw [bin, bitlen, if_neg h, spell, List.head?_cons, Nat.testBit_log2 h]

/-- No string that spells a number is shorter than the number's `bin`, the empty string aside. -/
theorem bitlen_num_le {b : BitString} (h : b ≠ []) : bitlen (num b) ≤ b.length :=
  (bitlen_le_iff (List.length_pos_iff.2 h)).2 (num_lt b)

/-! ### Both paddings (R104, R106) -/

/-- Settles O9: the left result is `v` spelled in `w` bits, the right one is `bin v` with zeros behind it. -/
theorem encValueOfEachPadding : Obligations.EncValueOfEachPadding := by
  intro v w hw h
  have hlt : v < 2 ^ w := (bitlen_le_iff hw).1 h
  refine ⟨spell w v, bin v ++ zeros (w - bitlen v), enc_left hw hlt, enc_right hw hlt, spell_length w v, ?_,
    num_spell_of_lt hlt, ?_, fun hv => ?_, fun hv => ?_, fun hn => ?_⟩
  · rw [List.length_append, bin_length, zeros_length, Nat.add_sub_cancel' h]
  · rw [num_append, num_bin, num_zeros, zeros_length, Nat.add_zero]
  · rw [List.head?_append, bin_head hv, Option.some_or]
  · subst hv
    exact ⟨spell_zero_value w, by rw [bin, spell_zero_value, zeros_append_zeros, Nat.add_sub_cancel' h, zeros]⟩
  · subst hn
    exact ⟨rfl, by rw [Nat.sub_self, zeros, List.replicate_zero, List.append_nil]⟩

/-- Settles O6: right padding multiplies by a power of two, which is 1 only where nothing is padded. -/
theorem encRoundTripsThroughNum : Obligations.EncRoundTripsThroughNum := by
  refine ⟨fun v w h => ?_, fun v w b h hb => ?_⟩
  · obtain ⟨l, -, hl, -, hlen, -, hnum, -⟩ := encValueOfEachPadding v w ((bitlen_pos v).trans h) h
    exact ⟨l, hl, hlen, hnum⟩
  · obtain ⟨-, r, -, hr, -, -, -, hnum, -⟩ := encValueOfEachPadding v w ((bitlen_pos v).trans h) h
    obtain rfl : b = r := Option.some.inj (hb.symm.trans hr)
    have hunpadded : 2 ^ (w - bitlen v) = 1 ↔ bitlen v = w := by rw [Nat.pow_eq_one]; omega
    exact ⟨hnum, by rw [hnum, mul_right_eq_self₀, hunpadded]⟩

/-! ### Every width (R101 to R103) -/

/-- R101: a value that fits is encoded, in `w` bits or in its natural length; only padding on the right changes the
number. -/
theorem enc_of_fits {v w : Nat} (h : w = 0 ∨ bitlen v ≤ w) (pr : Bool) :
    ∃ b, enc v w pr = some b ∧ b.length = (if w = 0 then bitlen v else w) ∧
      num b = if pr ∧ w ≠ 0 then v * 2 ^ (w - bitlen v) else v := by
  obtain rfl | hle := h
  · exact ⟨bin v, enc_zero_width v pr, bin_length v, by simp⟩
  · have hw : 1 ≤ w := (bitlen_pos v).trans hle
    obtain ⟨l, r, hl, hr, -, -, hnl, hnr, -⟩ := encValueOfEachPadding v w hw hle
    cases pr with
    | false => exact ⟨l, hl, enc_length hl, by simpa using hnl⟩
    | true => exact ⟨r, hr, enc_length hr, by rw [hnr, if_pos ⟨rfl, Nat.ne_of_gt hw⟩]⟩

/-- R102: `enc` gives nothing exactly when the value is too long for a width that is not 0. -/
theorem enc_eq_none_iff (v w : Nat) (pr : Bool) : enc v w pr = none ↔ w ≠ 0 ∧ w < bitlen v := by
  constructor
  · intro hnone
    by_contra hfits
    obtain ⟨b, hb, -⟩ := enc_of_fits (v := v) (w := w) (by omega) pr
    rw [hnone] at hb
    cases hb
  · rintro ⟨h0, hlong⟩
    have hw : 1 ≤ w := Nat.one_le_iff_ne_zero.2 h0
    exact enc_too_long hw (Nat.not_lt.1 (mt (bitlen_le_iff hw).2 (Nat.not_le.2 hlong))) pr

/-- Settles O7: `enc_eq_none_iff`, the same with `bitlen` written as a bound, and the one bit of 0. -/
theorem encOverflowsExactlyWhenTooLong : Obligations.EncOverflowsExactlyWhenTooLong := by
  refine ⟨enc_eq_none_iff, fun v w pr hw => ?_, fun w pr hnone => ?_⟩
  · rw [enc_eq_none_iff, ← Nat.not_le, bitlen_le_iff hw, Nat.not_lt, and_iff_right (Nat.ne_of_gt hw)]
  · obtain ⟨h0, hlong⟩ := (enc_eq_none_iff 0 w pr).1 hnone
    have hone : bitlen 0 = 1 := rfl
    omega

/-- What `enc` gives is never empty. -/
theorem enc_length_pos {v w : Nat} {pr : Bool} {b : BitString} (h : enc v w pr = some b) : 0 < b.length := by
  rw [enc_length h]
  split
  case isTrue => exact bitlen_pos v
  case isFalse h0 => exact Nat.pos_of_ne_zero h0

/-- Settles O8: width 0 gives `bin v`, and `bitlen_num_le` bounds every other spelling. -/
theorem encWidthZeroIsNaturalLength : Obligations.EncWidthZeroIsNaturalLength := by
  refine ⟨fun v pr => ?_, fun pr => ⟨rfl, ?_⟩⟩
  · have hbin := enc_zero_width v pr
    refine ⟨bin v, hbin, bin_length v, List.length_pos_iff.1 (enc_length_pos hbin), num_bin v, ?_⟩
    rintro b' hne rfl
    rw [bin_length]
    exact bitlen_num_le hne
  · rw [enc_zero_width]
    decide

/-! ### ENCODE (R100) -/

/-- A bit string that is not empty is the left-padded encoding of its number in its length. -/
theorem enc_num_length {b : BitString} (h : 0 < b.length) : enc (num b) b.length false = some b := by
  rw [enc_left h (num_lt b), spell_num]

section
variable {pr : Bool} {w : Nat} {s : State} (hw : w ≤ wmax)
include hw

/-- R100: RES is the number and RLEN the length of the string. -/
theorem exec_encode_of_some {b : BitString} (h : enc s.val.toNat w pr = some b) :
    exec (.encode pr w) s = .next (s.finishNumber (num b) b.length) := by
  rw [exec_eq, commandResult, encodeResult, if_neg (Nat.not_lt.2 hw), h]
  rfl

/-- R102: the overflow of ENCODE names the field id 0x30. -/
theorem exec_encode_of_none (h : enc s.val.toNat w pr = none) :
    exec (.encode pr w) s = .next (s.raise (.overflow 0x30)) := by
  rw [exec_eq, commandResult, encodeResult, if_neg (Nat.not_lt.2 hw), h]
  rfl

end

/-- R73, condition 4: the word of a WIDTH above 32 has no stray bit. -/
theorem decode_encodeWord_wide (pr : Bool) {w : Nat} (h32 : 32 < w) (h64 : w < 64) :
    decode (encode (.encode pr w)) = .error .width := by
  have hpr := pr.toNat_le
  have hword : (encode (.encode pr w)).toNat = 1 + 64 * pr.toNat + 256 * w := by
    rw [encode, BitVec.toNat_ofNat, Nat.mod_eq_of_lt (by omega)]
  refine decode_of_wide (by omega) ?_ (by omega)
  rw [StrayBit]
  omega

/-- Settles O10: the three outcomes of ENCODE by `enc_of_fits`, `enc_eq_none_iff` and `decode_encodeWord_wide`, its word
by the decoder's own round trip. -/
theorem encodeResultAndErrors : Obligations.EncodeResultAndErrors := by
  intro pr w s v n
  refine ⟨fun hw hfits => ?_, fun b hw hb => ?_, fun hw => ?_, fun hw h0 hlong => ?_, fun h32 h64 => ?_⟩
  · obtain ⟨b, hb, hlen, hnum⟩ := enc_of_fits hfits pr
    rw [exec_encode_of_some hw hb, hlen, hnum]
    rfl
  · exact ⟨exec_encode_of_some hw hb, enc_num_length (enc_length_pos hb)⟩
  · exact decodingAnEncodedInstrGivesItBack (.encode pr w) (decide_eq_true hw)
  · exact exec_encode_of_none hw ((enc_eq_none_iff v w pr).2 ⟨h0, hlong⟩)
  · exact runCommand_of_illegal (decode_encodeWord_wide pr h32 h64) s

end Sys2Proof.Machine
end

section
/-! The end-around carry fold (R120, R123): when one or two passes of the loop reach the folded sum, and the adder that
folds after every word. -/

namespace Sys2Proof.Machine

/-! ### The folded sum as a residue -/

@[simp] theorem foldedSum_eq_zero_iff (n : Nat) : foldedSum n = 0 ↔ n = 0 := by
  unfold foldedSum
  split
  case isTrue h => exact iff_of_true rfl h
  case isFalse h => exact iff_of_false (Nat.succ_ne_zero _) h

theorem foldedSum_mod (n : Nat) : foldedSum n % 65535 = n % 65535 := by
  unfold foldedSum
  split <;> omega

/-- Sums that are congruent modulo 0xFFFF, and are both 0 or neither, fold to the same number. -/
theorem foldedSum_congr {m n : Nat} (hmod : m % 65535 = n % 65535) (hzero : m = 0 ↔ n = 0) :
    foldedSum m = foldedSum n := by
  unfold foldedSum
  split <;> split <;> omega

/-- Part of a sum may be folded before the rest is added. -/
theorem foldedSum_foldedSum_add (m n : Nat) : foldedSum (foldedSum m + n) = foldedSum (m + n) := by
  have hmod := foldedSum_mod m
  have hzero := foldedSum_eq_zero_iff m
  exact foldedSum_congr (by omega) (by omega)

/-! ### One pass and two -/

theorem fold_of_le {n : Nat} (h : n ≤ 0xFFFF) (fuel : Nat) : fold fuel n = n := by
  cases fuel with
  | zero => rfl
  | succ fuel => exact if_neg (Nat.not_lt.2 h)

theorem fold_succ_of_lt {n : Nat} (h : 0xFFFF < n) (fuel : Nat) :
    fold (fuel + 1) n = fold fuel (n % 0x10000 + n / 0x10000) :=
  if_pos h

/-- A carry of at most one bit goes in without another. -/
theorem addCarry_eq_foldedSum {n : Nat} (h : n ≤ 0x1FFFE) : n % 0x10000 + n / 0x10000 = foldedSum n := by
  by_cases hbig : 0xFFFF < n
  · rw [← foldedSum_pass hbig, foldedSum_of_le (by omega)]
  · rw [foldedSum_of_le (by omega)]
    omega

theorem fold_one_eq_foldedSum {n : Nat} (h : n ≤ 0x1FFFE) : fold 1 n = foldedSum n := by
  by_cases hbig : 0xFFFF < n
  · exact (fold_succ_of_lt hbig 0).trans (addCarry_eq_foldedSum h)
  · rw [fold_of_le (by omega), foldedSum_of_le (by omega)]

/-- R123: the two halves of a 32-bit sum add to at most 0x1FFFE, which a second pass folds. -/
theorem fold_two_eq_foldedSum {n : Nat} (h : n < 2 ^ 32) : fold 2 n = foldedSum n := by
  by_cases hbig : 0xFFFF < n
  · rw [fold_succ_of_lt hbig, fold_one_eq_foldedSum (by omega), foldedSum_pass hbig]
  · rw [fold_of_le (by omega), foldedSum_of_le (by omega)]

/-! ### The carry put in after every word -/

/-- R123: a 16-bit adder that adds each word, then its carry, holds the folded sum of the words so far. -/
theorem foldl_addCarry_eq_foldedSum {ws : List Nat} (hws : ∀ w ∈ ws, w ≤ 0xFFFF) {acc : Nat} (hacc : acc ≤ 0xFFFF) :
    ws.foldl (fun acc w => (acc + w) % 0x10000 + (acc + w) / 0x10000) acc = foldedSum (acc + ws.sum) := by
  induction ws generalizing acc with
  | nil => exact (foldedSum_of_le hacc).symm
  | cons w ws ih =>
    obtain ⟨hw, hrest⟩ := List.forall_mem_cons.1 hws
    rw [List.foldl_cons, addCarry_eq_foldedSum (by omega), ih hrest (foldedSum_le _), foldedSum_foldedSum_add,
      List.sum_cons, Nat.add_assoc]

/-- Settles O11: loop and adder both reach the folded sum, which no order of the words changes. -/
theorem foldIsCongruenceAndEndAroundCarry : Obligations.FoldIsCongruenceAndEndAroundCarry := by
  refine ⟨fun sum h32 => ⟨?_, ?_, fun hbig => ⟨?_, fun hsmall => ?_⟩⟩, ⟨rfl, rfl⟩, fun ws hws => ?_⟩
  · rw [fold_two_eq_foldedSum h32, fold_eq_foldedSum (Nat.le_refl sum)]
  · rw [fold_eq_foldedSum (Nat.le_refl sum)]
    exact foldedSum_le sum
  · rw [fold_succ_of_lt (by omega), fold]
    omega
  · rw [fold_one_eq_foldedSum hsmall]
    exact foldedSum_le sum
  · have hzero : ws.sum = 0 ↔ ∀ w ∈ ws, w = 0 := List.sum_eq_zero_iff
    dsimp only
    rw [wordSum_eq_sum, fold_eq_foldedSum (Nat.le_refl ws.sum), foldedSum_eq_zero_iff]
    refine ⟨hzero, fun ⟨w, hw, hne⟩ => ⟨?_, foldedSum_le ws.sum, foldedSum_mod ws.sum⟩, fun ws' hperm => ?_⟩
    · rw [Nat.one_le_iff_ne_zero, Ne, foldedSum_eq_zero_iff, hzero]
      exact fun hall => hne (hall w hw)
    · rw [foldl_addCarry_eq_foldedSum (fun w hw => hws w (hperm.mem_iff.2 hw)) (Nat.zero_le _), Nat.zero_add,
        hperm.sum_eq]

end Sys2Proof.Machine
end

section
/-! The checksum over whole words and over bytes (R51, R120, R122, R124): what the answer becomes once it stands in its
own place, the words of a byte string with or without the pad, and CSUM (R121). -/

namespace Sys2Proof.Machine

/-! ### The checksum in its place (R124) -/

/-- A folded sum and its complement add to 0xFFFF, so a sum with its own checksum added is answered 0. -/
theorem refChecksum_add_refChecksum (n : Nat) : refChecksum (n + refChecksum n) = 0 := by
  have hle := foldedSum_le n
  have hfull : foldedSum n + refChecksum n = 65535 := by
    rw [refChecksum]
    omega
  rw [refChecksum, Nat.sub_eq_zero_iff_le, ← foldedSum_foldedSum_add, hfull, foldedSum_of_le (Nat.le_refl _)]

/-- The words of three parts that each begin on a word, the middle one a single word of value `c`. -/
theorem sum_wordsOf_around {pre : BitString} (hpre : pre.length % 16 = 0) {c : Nat} (hc : c ≤ 65535)
    (post : BitString) :
    (wordsOf (pre ++ spell 16 c ++ post)).sum = (wordsOf pre).sum + c + (wordsOf post).sum := by
  rw [wordsOf_append (by rw [List.length_append, spell_length]; omega), wordsOf_append hpre,
    wordsOf_word (spell_length 16 c), num_spell_of_lt (by omega), List.sum_append, List.sum_append,
    List.sum_singleton]

/-- R124: the checksum computed over a word of 0 and then put into that word. -/
theorem refChecksum_wordsOf_inPlace {pre : BitString} (hpre : pre.length % 16 = 0) (post : BitString) :
    refChecksum (wordsOf (pre ++ spell 16 (refChecksum (wordsOf (pre ++ zeros 16 ++ post)).sum) ++ post)).sum = 0 := by
  have hzero := sum_wordsOf_around hpre (Nat.zero_le _) post
  rw [spell_zero_value, Nat.add_zero] at hzero
  rw [sum_wordsOf_around hpre (refChecksum_le _), hzero, Nat.add_right_comm, refChecksum_add_refChecksum]

/-- Settles O12: `refChecksum_wordsOf_inPlace`, through `cks` of whole words. -/
theorem checksumInPlaceAnswersZero : Obligations.ChecksumInPlaceAnswersZero := by
  intro pre post hpre hpost
  have hwhole : ∀ w : BitString, w.length = 16 → (pre ++ w ++ post).length % 16 = 0 := fun w hw => by
    rw [List.length_append, List.length_append]
    omega
  have hle := refChecksum_le (wordsOf (pre ++ zeros 16 ++ post)).sum
  refine ⟨_, _, cks_of_words (hwhole _ (zeros_length 16)), enc_left (by decide) (by omega), ?_⟩
  rw [cks_of_words (hwhole _ (spell_length 16 _)), refChecksum_wordsOf_inPlace hpre]

/-! ### The words of bytes (R51) -/

@[simp] theorem wordsOf_nil : wordsOf [] = [] := List.length_eq_zero_iff.1 (wordsOf_length [])

theorem wordSumOf_add_two (b : Nat → Byte) (n : Nat) :
    wordSumOf b (n + 2) = (b 0).toNat * 256 + (b 1).toNat + wordSumOf (fun k => b (k + 2)) n := by
  have hlater : ∀ j, 2 * (j + 1) + 1 < n + 2 ↔ 2 * j + 1 < n := fun j => by omega
  rw [wordSumOf, show (n + 2 + 1) / 2 = (n + 1) / 2 + 1 by omega, List.range_succ_eq_map, List.map_cons, List.sum_cons,
    List.map_map, wordSumOf, if_pos (by omega)]
  simp only [Function.comp_def, Nat.succ_eq_add_one, hlater]
  rfl

/-- R51, R144: the words of `n` bytes, with a byte of 0 behind an odd number of them. -/
theorem sum_wordsOf_padded (b : Nat → Byte) (n : Nat) :
    (wordsOf (bitsOf ((List.range n).map b) ++ zeros (8 * (n % 2)))).sum = wordSumOf b n := by
  induction n using Nat.twoStepInduction generalizing b with
  | zero => exact congrArg List.sum wordsOf_nil
  | one =>
    have hpad : bitsOf ((List.range 1).map b) ++ zeros (8 * (1 % 2)) = bitsOf [b 0, 0] := rfl
    rw [hpad, wordsOf_two_bytes]
    rfl
  | more n ih _ =>
    have hbytes : (List.range (n + 2)).map b = [b 0, b 1] ++ (List.range n).map (fun k => b (k + 2)) := by
      rw [List.range_succ_eq_map, List.range_succ_eq_map]
      simp
    rw [hbytes, bitsOf_append, List.append_assoc, wordsOf_append (by simp), List.sum_append, Nat.add_mod_right, ih,
      wordsOf_two_bytes, wordSumOf_add_two]
    simp

theorem sum_wordsOf_even (b : Nat → Byte) {n : Nat} (hn : n % 2 = 0) :
    (wordsOf (bitsOf ((List.range n).map b))).sum = wordSumOf b n := by
  rw [← sum_wordsOf_padded, hn]
  exact congrArg (fun s => (wordsOf s).sum) (List.append_nil _).symm

/-- R120: `cks` of an even number of bytes. -/
theorem cks_of_bytes (b : Nat → Byte) {n : Nat} (hn : n % 2 = 0) :
    cks (bitsOf ((List.range n).map b)) = .ok (refChecksum (wordSumOf b n)) := by
  rw [cks_of_words (by rw [bitsOf_length, List.length_map, List.length_range]; omega), sum_wordsOf_even b hn]

/-- Settles O13: the empty string is the case of no bytes. -/
theorem checksumOfBytesIsTheComplementedSum : Obligations.ChecksumOfBytesIsTheComplementedSum :=
  ⟨fun b _ hn => cks_of_bytes b hn, fun _ h => cks_of_ragged h, cks_of_bytes (fun _ => 0) (n := 0) rfl⟩

/-! ### CSUM (R121) -/

/-- R205: a CLEN that is no multiple of 16 is reported, whatever PBUF holds. -/
theorem exec_csum_of_ragged {s : State} (hle : s.clen.toNat ≤ 524288) (h : s.clen.toNat % 16 ≠ 0) :
    exec .csum s = .next (s.raise .checksumLength) := by
  have hchecks : csumChecks s = .error .checksumLength := (if_neg (Nat.not_lt.2 hle)).trans (if_pos h)
  have hresult : commandResult .csum s = .ok (.error .checksumLength) :=
    inputResult_of_error hchecks (fun bs => by rw [csumResult, hchecks])
  exact (exec_next_iff _ _ _).2 ⟨_, hresult, rfl⟩

/-- R121: over input bytes that have all been written, CSUM leaves their checksum. -/
theorem exec_csum_of_written {s : State} {b : Nat → Byte} (hwf : Memory.wf s.pbuf) (hle : s.clen.toNat ≤ 524288)
    (h : s.clen.toNat % 16 = 0) (hb : s.PayloadIs (s.clen.toNat / 8) b) :
    exec .csum s = .next (s.finishNumber (refChecksum (wordSumOf b (s.clen.toNat / 8))) 16) := by
  have hinput : s.csumInput = .ok ((List.range (s.clen.toNat / 8)).map b) :=
    Memory.readBlock_of_written hwf (fun k hk => by rw [Nat.zero_add]; exact hb k hk)
  have hchecks : csumChecks s = .ok () := (if_neg (Nat.not_lt.2 hle)).trans (if_neg (not_not.2 h))
  rw [exec_eq, commandResult, hinput, inputResult, csumResult, hchecks, cks_of_bytes b (by omega)]
  rfl

/-- Settles O15: the three outcomes of CSUM, and its word by the decoder's own round trip. -/
theorem csumResultAndErrors : Obligations.CsumResultAndErrors :=
  ⟨decodingAnEncodedInstrGivesItBack .csum rfl, fun _ =>
    ⟨fun _ hwf hle h hb => exec_csum_of_written hwf hle h hb, fun hlong => exec_csum_of_long hlong,
      fun hle h => exec_csum_of_ragged hle h⟩⟩

end Sys2Proof.Machine
end

section
/-! The TCP checksum input (R81, R125, R144): its parts, its length, and its sum. -/

namespace Sys2Proof.Machine

theorem tcpPad_eq (s : State) : tcpPad s = zeros (8 * (s.plen.toNat % 2)) := by
  unfold tcpPad
  obtain heven | hodd := Nat.mod_two_eq_zero_or_one s.plen.toNat
  · rw [if_neg (by omega), heven]
    rfl
  · rw [if_pos hodd, hodd]

/-- R143: what stands ahead of the payload is the pseudo-header and the header with checksum 0. -/
theorem tcpPrepare_ok {p : Place} {s : State} {front : BitString} (h : tcpPrepare p s = .ok front) :
    ∃ ps t0, encFields (pseudoFields s) = .ok ps ∧ tcpImage s (tcpFlags p) 0 = .ok t0 ∧ front = ps ++ t0 := by
  unfold tcpPrepare at h
  split at h
  · cases h
  · rename_i t0 ht0
    split at h
    · cases h
    · rename_i ps hps
      exact ⟨ps, t0, hps, ht0, (Except.ok.inj h).symm⟩

/-- R77: a pseudo-header that can be built has a segment length of 16 bits. -/
theorem segmentLength_of_pseudo {s : State} {ps : BitString} (h : encFields (pseudoFields s) = .ok ps) :
    20 + s.plen.toNat < 2 ^ 16 := by
  obtain ⟨hfits, -⟩ := encFields_ok h
  exact (hfits ⟨0x24, 20 + s.plen.toNat, 16⟩ (by simp [pseudoFields])).resolve_left (Nat.succ_ne_zero 15)

theorem tcpInput_length {p : Place} {s : State} {front : BitString} {pay : List Byte}
    (h : tcpPrepare p s = .ok front) (hpay : pay.length = s.plen.toNat) :
    (front ++ bitsOf pay ++ tcpPad s).length = 256 + 8 * (s.plen.toNat + s.plen.toNat % 2) := by
  rw [List.length_append, List.length_append, tcpPrepare_length h, bitsOf_length, hpay, tcpPad_eq, zeros_length]
  omega

/-- Words of 16 bits add to at most 0xFFFF each. -/
theorem sum_wordsOf_le (s : BitString) : (wordsOf s).sum ≤ (wordsOf s).length * 0xFFFF :=
  List.sum_le_card_nsmul (wordsOf s) 0xFFFF (fun _ hw => wordsOf_le hw)

/-- Settles O14: the segment length bounds PLEN by 65515, and each word is at most 0xFFFF. -/
theorem unfoldedSumsFit32Bits : Obligations.UnfoldedSumsFit32Bits := by
  refine ⟨fun p s front pay hprep hpay => ?_, fun m => ?_, by decide, by decide⟩
  · obtain ⟨ps, t0, hps, -, -⟩ := tcpPrepare_ok hprep
    have hplen := segmentLength_of_pseudo hps
    have hlen := tcpInput_length hprep hpay
    have hsum := sum_wordsOf_le (front ++ bitsOf pay ++ tcpPad s)
    rw [wordsOf_length] at hsum
    dsimp only
    rw [wordSum_eq_sum, wordsOf_length]
    omega
  · rw [wordSum_eq_sum, List.sum_replicate, smul_eq_mul]

end Sys2Proof.Machine
end

section
/-! Both checksums of an assembled packet verify (R124, R146, R165): each header is its image with the checksum in a
word of its own, and OBUF holds the bytes of both images and the payload. -/

namespace Sys2Proof.Machine

/-! ### The checksum's own word in each header -/

/-- A 16-bit field among others that fit. -/
theorem encFields_around {fs gs : List HeaderField} {id : Byte} {c : Nat} {b : BitString}
    (h : encFields (fs ++ ⟨id, c, 16⟩ :: gs) = .ok b) :
    b = fs.flatMap HeaderField.image ++ spell 16 c ++ gs.flatMap HeaderField.image := by
  obtain ⟨-, rfl⟩ := encFields_ok h
  rw [List.flatMap_append, List.flatMap_cons, List.append_assoc]
  rfl

/-- R74: with the default widths the IPv4 checksum is the sixth word, whatever its value. -/
theorem ipImage_around {s : State} (hw : s.cfg.ipw = IpWidths.standard) (total : Nat) :
    ∃ pre post : BitString, pre.length % 16 = 0 ∧
      ∀ c h, ipImage s total c = .ok h → h = pre ++ spell 16 c ++ post := by
  refine ⟨((ipFields s total 0).take 10).flatMap HeaderField.image,
    ((ipFields s total 0).drop 11).flatMap HeaderField.image, ?_, fun c h himage => ?_⟩
  · rw [fields_length]
    simp [ipFields, hw, IpWidths.standard, HeaderField.bitCount]
  · refine encFields_around (id := 0x0A) ?_
    rw [← himage, ipImage]
    simp [ipFields, hw, IpWidths.standard]

/-- R75: the TCP checksum is the ninth word, whatever its value. -/
theorem tcpImage_around (s : State) (fl : Nat) :
    ∃ pre post : BitString, pre.length % 16 = 0 ∧
      ∀ c t, tcpImage s fl c = .ok t → t = pre ++ spell 16 c ++ post := by
  refine ⟨((tcpFields s fl 0).take 8).flatMap HeaderField.image,
    ((tcpFields s fl 0).drop 9).flatMap HeaderField.image, ?_, fun c t himage => encFields_around (id := 0x18) himage⟩
  rw [fields_length]
  simp [tcpFields, HeaderField.bitCount]

/-! ### The words of the pseudo-header -/

/-- R51: the two words of a register, high one first. -/
theorem wordsOf_spell_word (a : Word) : wordsOf (spell 32 a.toNat) = [hi16 a, lo16 a] := by
  have hlt := a.isLt
  have hhi : hi16 a < 2 ^ 16 := by rw [hi16]; omega
  have hlo : lo16 a < 2 ^ 16 := by rw [lo16]; omega
  have hsplit : spell 32 a.toNat = spell 16 (hi16 a) ++ spell 16 (lo16 a) := by
    refine eq_of_num_eq (by simp) ?_
    rw [num_append, num_spell_of_lt hlt, num_spell_of_lt hhi, num_spell_of_lt hlo, spell_length, hi16, lo16]
    omega
  rw [hsplit, wordsOf_append (by simp), wordsOf_word (by simp), wordsOf_word (by simp), num_spell_of_lt hhi,
    num_spell_of_lt hlo, List.singleton_append]

/-- R77, R81: the pseudo-header adds the addresses, the protocol and the segment length to the sum. -/
theorem sum_wordsOf_pseudo {s : State} {ps : BitString} (h : encFields (pseudoFields s) = .ok ps) :
    (wordsOf ps).sum =
      hi16 s.srcaddr + lo16 s.srcaddr + hi16 s.dstaddr + lo16 s.dstaddr + 6 + (20 + s.plen.toNat) := by
  have hseg := segmentLength_of_pseudo h
  obtain ⟨-, rfl⟩ := encFields_ok h
  have hparts : (pseudoFields s).flatMap HeaderField.image =
      spell 32 s.srcaddr.toNat ++ (spell 32 s.dstaddr.toNat ++ (bitsOf [0, 6] ++ spell 16 (20 + s.plen.toNat))) := rfl
  have hprotocol : wordsOf (bitsOf [0, 6]) = [6] := by rw [wordsOf_two_bytes, bitsOf_nil, wordsOf_nil]; rfl
  rw [hparts, wordsOf_append (by simp), wordsOf_append (by simp), wordsOf_append (by simp), wordsOf_spell_word,
    wordsOf_spell_word, hprotocol, wordsOf_word (spell_length 16 _), num_spell_of_lt hseg]
  simp only [List.sum_append, List.sum_cons, List.sum_nil]
  omega

/-! ### A header that is built -/

/-- R165: an IPv4 header that is built verifies. -/
theorem ipBuild_verifies {s : State} (hw : s.cfg.ipw = IpWidths.standard) {h : BitString} (hb : ipBuild s = .ok h) :
    refChecksum (wordsOf h).sum = 0 := by
  obtain ⟨-, -, -, -, h0, hzero, -, hfull⟩ := ipBuild_ok hb
  obtain ⟨pre, post, hpre, himage⟩ := ipImage_around hw (totalLength s)
  obtain rfl := himage _ _ hfull
  obtain rfl := himage _ _ hzero
  rw [spell_zero_value, refChecksum_wordsOf_inPlace hpre]

/-- R146: a TCP header that is built verifies, with the words of the pseudo-header in front, and payload and pad
behind. -/
theorem tcpBuild_verifies {p : Place} {s : State} {pay : List Byte} (hpay : pay.length = s.plen.toNat) {t : BitString}
    (hb : tcpBuild p s pay = .ok t) :
    t.length = 160 ∧
      refChecksum (hi16 s.srcaddr + lo16 s.srcaddr + hi16 s.dstaddr + lo16 s.dstaddr + 6 + (20 + s.plen.toNat)
        + (wordsOf (t ++ bitsOf pay ++ tcpPad s)).sum) = 0 := by
  obtain ⟨e, -, he⟩ | ⟨front, t', hprep, ht', hlen, hfull⟩ := tcpBuild_spec (p := p) hpay
  · rw [he] at hb
    cases hb
  · obtain rfl := Except.ok.inj (ht'.symm.trans hb)
    obtain ⟨ps, t0, hps, hzero, rfl⟩ := tcpPrepare_ok hprep
    obtain ⟨pre, post, hpre, himage⟩ := tcpImage_around s (tcpFlags p)
    have hpslen : ps.length = 96 := by rw [(encFields_ok hps).2, fields_length, pseudoFields_bits]
    have hinPlace := refChecksum_wordsOf_inPlace (pre := ps ++ pre) (by rw [List.length_append]; omega)
      (post ++ bitsOf pay ++ tcpPad s)
    obtain rfl := himage _ _ hfull
    obtain rfl := himage _ _ hzero
    refine ⟨hlen, ?_⟩
    rw [← sum_wordsOf_pseudo hps, ← List.sum_append, ← wordsOf_append (by omega)]
    simpa only [spell_zero_value, List.append_assoc] using hinPlace

/-! ### The words of the bytes -/

theorem bitsOf_bytesOf_byte {p : BitString} (hp : p.length = 8) : bitsOf (bytesOf p) = p := by
  have hlt := num_lt p
  rw [hp] at hlt
  rw [bytesOf_byte hp, bitsOf_cons, bitsOf_nil, List.append_nil, BitVec.toNat_ofNat, Nat.mod_eq_of_lt hlt]
  exact eq_of_num_eq (by rw [spell_length, hp]) (num_spell_of_lt hlt)

/-- R9: `bits_of` undoes `bytes_of` on whole bytes. -/
theorem bitsOf_bytesOf {m : Nat} {s : BitString} (h : s.length = 8 * m) : bitsOf (bytesOf s) = s := by
  induction m generalizing s with
  | zero =>
    obtain rfl := List.length_eq_zero_iff.1 h
    rfl
  | succ m ih =>
    have hbyte : (s.take 8).length = 8 := by rw [List.length_take]; omega
    have hrest : (s.drop 8).length = 8 * m := by rw [List.length_drop]; omega
    rw [← List.take_append_drop 8 s, bytesOf_append (by omega), bitsOf_append, bitsOf_bytesOf_byte hbyte, ih hrest]

/-- The sum over bytes read off a list by index. -/
theorem wordSumOf_of_getD {bs : List Byte} {b : Nat → Byte} (h : ∀ k < bs.length, b k = bs.getD k 0) :
    wordSumOf b bs.length = (wordsOf (bitsOf bs ++ zeros (8 * (bs.length % 2)))).sum := by
  have hbytes : (List.range bs.length).map b = bs := by
    refine List.ext_getElem (by simp) (fun k hk hk' => ?_)
    rw [List.getElem_map, List.getElem_range, h k hk', List.getD_eq_getElem _ _ hk']
  rw [← sum_wordsOf_padded, hbytes]

theorem bytesOf_header_length {h : BitString} (hlen : h.length = 160) : (bytesOf h).length = 20 := by
  rw [bytesOf_length, hlen]

/-- R180: the first 20 bytes sum to the words of the IPv4 header. -/
theorem wordSumOf_ipHeader {h : BitString} (hlen : h.length = 160) (rest : List Byte) :
    wordSumOf (fun k => (bytesOf h ++ rest).getD k 0) 20 = (wordsOf h).sum := by
  have hsum := wordSumOf_of_getD (bs := bytesOf h) (b := fun k => (bytesOf h ++ rest).getD k 0)
    (fun k hk => List.getD_append _ _ _ _ hk)
  rw [bytesOf_header_length hlen, bitsOf_bytesOf (m := 20) hlen] at hsum
  exact hsum.trans (congrArg (fun b => (wordsOf b).sum) (List.append_nil h))

/-- R180, R144: the bytes from 20 on sum to the words of TCP header, payload and pad. -/
theorem wordSumOf_segment {h t : BitString} (hlen : h.length = 160) (htlen : t.length = 160) {s : State}
    {pay : List Byte} (hpay : pay.length = s.plen.toNat) :
    wordSumOf (fun k => (bytesOf h ++ (bytesOf t ++ pay)).getD (20 + k) 0) (20 + s.plen.toNat) =
      (wordsOf (t ++ bitsOf pay ++ tcpPad s)).sum := by
  have hhead := bytesOf_header_length hlen
  have hseg : (bytesOf t ++ pay).length = 20 + s.plen.toNat := by
    rw [List.length_append, bytesOf_header_length htlen, hpay]
  have hodd : (20 + s.plen.toNat) % 2 = s.plen.toNat % 2 := by omega
  have hsum := wordSumOf_of_getD (bs := bytesOf t ++ pay)
    (b := fun k => (bytesOf h ++ (bytesOf t ++ pay)).getD (20 + k) 0)
    (fun k hk => by rw [List.getD_append_right _ _ _ _ (by omega), hhead, Nat.add_sub_cancel_left])
  rwa [hseg, hodd, ← tcpPad_eq, bitsOf_append, bitsOf_bytesOf (m := 20) htlen] at hsum

/-! ### The bytes in OBUF -/

theorem State.read_finishOutput (s : State) {bs : List Byte} {k : Nat} (h : k < bs.length) :
    Memory.read (s.finishOutput bs).obuf k = some (bs.getD k 0) := by
  have hread := Memory.read_writeBlock_inside s.obuf 0 bs h
  rwa [Nat.zero_add, List.getElem?_eq_getElem h, ← List.getD_eq_getElem bs 0 h] at hread

theorem assembleResult_ok {p : Place} {s : State} {pay : List Byte} {res : Result}
    (hres : assembleResult p s pay = .ok res) :
    ∃ h t, ipBuild s = .ok h ∧ tcpBuild p s pay = .ok t ∧ res = .output (bytesOf h ++ bytesOf t ++ pay) := by
  unfold assembleResult at hres
  split at hres
  · cases hres
  · split at hres
    · cases hres
    · rename_i h hip
      split at hres
      · cases hres
      · rename_i t htcp
        exact ⟨h, t, hip, htcp, (Except.ok.inj hres).symm⟩

/-- R180: an ASSEMBLE that succeeds leaves both headers and the payload in OBUF. -/
theorem exec_assemble_done {p : Place} {s s' : State} (hexec : exec (.assemble p) s = .next s')
    (hdone : s'.done = true) :
    ∃ pay h t, s.payload = .ok pay ∧ ipBuild s = .ok h ∧ tcpBuild p s pay = .ok t ∧
      s' = s.finishOutput (bytesOf h ++ bytesOf t ++ pay) := by
  obtain ⟨r, hr, rfl⟩ := (exec_next_iff _ _ _).1 hexec
  obtain ⟨res, rfl⟩ := State.settle_done hdone
  obtain ⟨pay, hpay, hbuild⟩ | ⟨k, e, -, -, he⟩ := inputResult_cases hr
  · obtain ⟨h, t, hip, htcp, rfl⟩ := assembleResult_ok hbuild.symm
    exact ⟨pay, h, t, hpay, hip, htcp, rfl⟩
  · cases he

/-- Settles O29: the bytes in OBUF are those of the two built headers and the payload, and both headers verify. -/
theorem assembledChecksumsVerify : Obligations.AssembledChecksumsVerify := by
  rintro p s s' ⟨-, -, hw, -⟩ - hexec hdone
  obtain ⟨pay, h, t, hpay, hip, htcp, rfl⟩ := exec_assemble_done hexec hdone
  have hpaylen := payload_length hpay
  obtain ⟨htotal, -, hlen, -⟩ := ipBuild_ok hip
  obtain ⟨htlen, hverify⟩ := tcpBuild_verifies hpaylen htcp
  rw [totalLength] at htotal
  rw [List.append_assoc]
  have hsize : (bytesOf h ++ (bytesOf t ++ pay)).length = 20 + (20 + s.plen.toNat) := by
    rw [List.length_append, List.length_append, bytesOf_header_length hlen, bytesOf_header_length htlen, hpaylen]
  have holen : (s.finishOutput (bytesOf h ++ (bytesOf t ++ pay))).olen.toNat = 20 + (20 + s.plen.toNat) := by
    rw [State.finishOutput_olen, hsize, BitVec.toNat_ofNat, Nat.mod_eq_of_lt (by omega)]
  rw [holen, Nat.add_sub_cancel_left]
  refine ⟨fun k => (bytesOf h ++ (bytesOf t ++ pay)).getD k 0, fun k hk => s.read_finishOutput (by omega), ?_, ?_⟩
  · rw [wordSumOf_ipHeader hlen, ipBuild_verifies hw hip]
  · rw [wordSumOf_segment hlen htlen hpaylen, hverify]

end Sys2Proof.Machine
end

section
/-! The TCP header as bytes (R51, R75, R142): what the ten fields spell for any checksum, and the words those bytes
make. -/

namespace Sys2Proof.Machine

/-! ### Numbers as bytes, high byte first (R51) -/

theorem spell_eq_bytes16 (v : Nat) : spell 16 v = bitsOf (bytes16 v) := by
  refine eq_of_num_eq (by simp [bytes16]) ?_
  simp only [bytes16, bitsOf_cons, bitsOf_nil, num_append, num_spell, num_nil, spell_length, List.length_append,
    List.length_nil, BitVec.toNat_ofNat]
  omega

theorem spell_eq_bytes32 (a : Word) : spell 32 a.toNat = bitsOf (bytes32 a) := by
  have hlt := a.isLt
  refine eq_of_num_eq (by simp [bytes32, bytes16]) ?_
  rw [bytes32, bitsOf_append, ← spell_eq_bytes16, ← spell_eq_bytes16, num_append, num_spell, num_spell, num_spell,
    spell_length, hi16, lo16]
  omega

theorem wordsOf_bytes16 {v : Nat} (h : v ≤ 65535) (bs : List Byte) :
    wordsOf (bitsOf (bytes16 v ++ bs)) = v :: wordsOf (bitsOf bs) := by
  rw [bitsOf_append, ← spell_eq_bytes16, wordsOf_append (by simp), wordsOf_word (by simp),
    num_spell_of_lt (by omega), List.singleton_append]

theorem wordsOf_bytes32 (a : Word) (bs : List Byte) :
    wordsOf (bitsOf (bytes32 a ++ bs)) = hi16 a :: lo16 a :: wordsOf (bitsOf bs) := by
  rw [bitsOf_append, ← spell_eq_bytes32, wordsOf_append (by simp), wordsOf_spell_word, List.cons_append,
    List.singleton_append]

/-! ### The ten fields (R75) -/

/-- R75 byte by byte, with any value in the checksum field. -/
def tcpBytesWith (s : State) (place : Place) (c : Nat) : List Byte :=
  bytes16 s.sport.toNat ++ (bytes16 s.dport.toNat ++ (bytes32 s.seq ++ (bytes32 s.ackn ++
    ([0x50, BitVec.ofNat 8 (flagByte place)] ++ (bytes16 s.cfg.window ++ (bytes16 c ++ [0x00, 0x00]))))))

theorem tcpBytes_eq (s : State) (p : Place) (b : Nat → Byte) :
    tcpBytes s p b = tcpBytesWith s p (refChecksum (tcpSum s p b)) := rfl

theorem tcpBytesWith_length (s : State) (p : Place) (c : Nat) : (tcpBytesWith s p c).length = 20 := rfl

/-- R142: data offset, reserved bits and flags are bytes 12 and 13. -/
theorem spell_flags (p : Place) :
    spell 4 5 ++ (spell 3 0 ++ spell 9 (tcpFlags p)) = bitsOf [0x50, BitVec.ofNat 8 (flagByte p)] := by
  cases p <;> rfl

theorem wordsOf_flags (p : Place) (bs : List Byte) :
    wordsOf (bitsOf ([0x50, BitVec.ofNat 8 (flagByte p)] ++ bs)) = (0x5000 + flagByte p) :: wordsOf (bitsOf bs) := by
  cases p <;> exact wordsOf_two_bytes _ _ bs

/-- A header image is the bits of its 20 bytes. -/
theorem tcpImage_eq_bytes {s : State} {p : Place} {c : Nat} {t : BitString} (h : tcpImage s (tcpFlags p) c = .ok t) :
    t = bitsOf (tcpBytesWith s p c) := by
  obtain ⟨-, rfl⟩ := encFields_ok h
  have hfields : (tcpFields s (tcpFlags p) c).flatMap HeaderField.image =
      spell 16 s.sport.toNat ++ (spell 16 s.dport.toNat ++ (spell 32 s.seq.toNat ++ (spell 32 s.ackn.toNat ++
        ((spell 4 5 ++ (spell 3 0 ++ spell 9 (tcpFlags p))) ++
          (spell 16 s.cfg.window ++ (spell 16 c ++ spell 16 0)))))) := rfl
  rw [hfields, spell_flags]
  simp only [spell_eq_bytes16, spell_eq_bytes32, ← bitsOf_append]
  rfl

/-- R81: the words of a header image add up field by field. -/
theorem sum_wordsOf_tcpImage {s : State} {p : Place} {c : Nat} {t : BitString} (h : tcpImage s (tcpFlags p) c = .ok t) :
    (wordsOf t).sum = s.sport.toNat + s.dport.toNat + hi16 s.seq + lo16 s.seq + hi16 s.ackn + lo16 s.ackn
      + (0x5000 + flagByte p) + s.cfg.window + c := by
  obtain ⟨hfits, -⟩ := encFields_ok h
  simp only [tcpFields, List.forall_mem_cons, HeaderField.Fits] at hfits
  obtain ⟨hsport, hdport, -, -, -, -, -, hwindow, hc, -⟩ := hfits
  have hurgent : wordsOf (bitsOf [0x00, 0x00]) = [0] := rfl
  rw [tcpImage_eq_bytes h, tcpBytesWith, wordsOf_bytes16 (by omega), wordsOf_bytes16 (by omega), wordsOf_bytes32,
    wordsOf_bytes32, wordsOf_flags, wordsOf_bytes16 (by omega), wordsOf_bytes16 (by omega), hurgent]
  simp only [List.sum_cons, List.sum_nil]
  omega

/-- R81: the words under the checksum add up to the reference sum. -/
theorem sum_wordsOf_tcpInput {s : State} {p : Place} {front : BitString} (h : tcpPrepare p s = .ok front)
    (b : Nat → Byte) :
    (wordsOf (front ++ bitsOf ((List.range s.plen.toNat).map b) ++ tcpPad s)).sum = tcpSum s p b := by
  have hwhole := tcpPrepare_length h
  obtain ⟨ps, t0, hps, ht0, rfl⟩ := tcpPrepare_ok h
  have hpslen : ps.length = 96 := by rw [(encFields_ok hps).2, fields_length, pseudoFields_bits]
  rw [List.append_assoc, wordsOf_append (by omega), wordsOf_append (by omega), List.sum_append, List.sum_append,
    tcpPad_eq, sum_wordsOf_padded, sum_wordsOf_pseudo hps, sum_wordsOf_tcpImage ht0, tcpSum]
  omega

end Sys2Proof.Machine
end

section
/-! TCPHDR (R140, R143): the order of its errors, and the header it leaves where no field overflows. -/

namespace Sys2Proof.Machine

/-! ### Which fields fit -/

/-- R141: with ports of 16 bits the first field that can overflow is the window, the eighth. -/
theorem tcpFields_before_window_fit {s : State} (hsport : s.sport.toNat ≤ 65535) (hdport : s.dport.toNat ≤ 65535)
    (p : Place) (c : Nat) : ∀ f ∈ (tcpFields s (tcpFlags p) c).take 7, f.Fits := by
  have hseq := word_lt s.seq
  have hackn := word_lt s.ackn
  have hflags := tcpFlags_lt p
  simp only [tcpFields, List.take_succ_cons, List.take_zero, List.forall_mem_cons, HeaderField.Fits]
  refine ⟨?_, ?_, ?_, ?_, ?_, ?_, ?_, by simp⟩ <;> omega

theorem tcpImage_of_fits {s : State} (hsport : s.sport.toNat ≤ 65535) (hdport : s.dport.toNat ≤ 65535)
    (hwindow : s.cfg.window ≤ 65535) (p : Place) : ∃ t0, tcpImage s (tcpFlags p) 0 = .ok t0 := by
  refine ⟨_, encFields_of_fits ?_⟩
  rw [← List.take_append_drop 7 (tcpFields s (tcpFlags p) 0), List.forall_mem_append]
  refine ⟨tcpFields_before_window_fit hsport hdport p 0, ?_⟩
  simp only [tcpFields, List.drop_succ_cons, List.drop_zero, List.forall_mem_cons, HeaderField.Fits]
  refine ⟨?_, ?_, ?_, by simp⟩ <;> omega

/-- R77: in the pseudo-header only the segment length, the last field, can overflow. -/
theorem pseudoFields_before_length_fit (s : State) : ∀ f ∈ (pseudoFields s).take 4, f.Fits := by
  have hsrc := word_lt s.srcaddr
  have hdst := word_lt s.dstaddr
  simp only [pseudoFields, List.take_succ_cons, List.take_zero, List.forall_mem_cons, HeaderField.Fits]
  refine ⟨?_, ?_, ?_, ?_, by simp⟩ <;> omega

/-! ### The order of the errors (R210) -/

section
variable {s : State} {p : Place}

theorem tcpPrepare_of_image_error {e : Error} (h : tcpImage s (tcpFlags p) 0 = .error e) :
    tcpPrepare p s = .error e := by
  rw [tcpPrepare, h]

theorem tcpPrepare_of_sport (h : 65535 < s.sport.toNat) : tcpPrepare p s = .error (.overflow 0x10) :=
  tcpPrepare_of_image_error (encFields_first_overflow (pre := []) (by simp) (by simp only [HeaderField.Fits]; omega))

theorem tcpPrepare_of_dport (hsport : s.sport.toNat ≤ 65535) (h : 65535 < s.dport.toNat) :
    tcpPrepare p s = .error (.overflow 0x11) :=
  tcpPrepare_of_image_error (encFields_first_overflow (pre := [⟨0x10, s.sport.toNat, 16⟩])
    (by simp only [List.forall_mem_singleton, HeaderField.Fits]; omega) (by simp only [HeaderField.Fits]; omega))

theorem tcpPrepare_of_window (hsport : s.sport.toNat ≤ 65535) (hdport : s.dport.toNat ≤ 65535)
    (h : 65535 < s.cfg.window) : tcpPrepare p s = .error (.overflow 0x17) :=
  tcpPrepare_of_image_error (encFields_first_overflow (tcpFields_before_window_fit hsport hdport p 0)
    (by simp only [HeaderField.Fits]; omega))

theorem tcpPrepare_of_plen (hsport : s.sport.toNat ≤ 65535) (hdport : s.dport.toNat ≤ 65535)
    (hwindow : s.cfg.window ≤ 65535) (h : 65515 < s.plen.toNat) : tcpPrepare p s = .error (.overflow 0x24) := by
  obtain ⟨t0, ht0⟩ := tcpImage_of_fits hsport hdport hwindow p
  have hps : encFields (pseudoFields s) = .error (.overflow 0x24) :=
    encFields_first_overflow (f := ⟨0x24, 20 + s.plen.toNat, 16⟩) (pseudoFields_before_length_fit s)
      (by simp only [HeaderField.Fits]; omega)
  rw [tcpPrepare, ht0]
  simp only [hps]

theorem tcpPrepare_of_fits (hsport : s.sport.toNat ≤ 65535) (hdport : s.dport.toNat ≤ 65535)
    (hwindow : s.cfg.window ≤ 65535) (hplen : s.plen.toNat ≤ 65515) : ∃ front, tcpPrepare p s = .ok front := by
  obtain ⟨t0, ht0⟩ := tcpImage_of_fits hsport hdport hwindow p
  have hfits : ∀ f ∈ pseudoFields s, f.Fits := by
    rw [← List.take_append_drop 4 (pseudoFields s), List.forall_mem_append]
    refine ⟨pseudoFields_before_length_fit s, ?_⟩
    simp only [pseudoFields, List.drop_succ_cons, List.drop_zero, List.forall_mem_singleton, HeaderField.Fits]
    omega
  refine ⟨(pseudoFields s).flatMap HeaderField.image ++ t0, ?_⟩
  simp only [tcpPrepare, ht0, encFields_of_fits hfits]

/-- An error ahead of the read is TCPHDR's outcome, whatever PBUF holds. -/
theorem exec_tcphdr_of_prepare_error {e : Error} (hclear : s.failMark = 0) (h : tcpPrepare p s = .error e) :
    exec (.tcphdr p) s = .next (s.raise e) := by
  have hresolved := resolved_of_clear hclear
  have hresult : commandResult (.tcphdr p) s = .ok (.error e) :=
    inputResult_of_error (by rw [tcphdrChecks, hresolved, ← h])
      (fun pay => by simp only [tcphdrResult, hresolved, tcpBuild, h])
  exact (exec_next_iff _ _ _).2 ⟨_, hresult, rfl⟩

theorem exec_tcphdr_of_failed (h : s.failMark ≠ 0) :
    exec (.tcphdr p) s = .next (s.raise (.addressResolution (BitVec.ofNat 8 s.failMark))) :=
  (exec_next_iff _ _ _).2 ⟨_, commandResult_of_unresolved (by simp) (resolved_of_failed h), rfl⟩

end

theorem statusError_failMark (s : State) :
    statusError (.addressResolution (BitVec.ofNat 8 s.failMark)) = BitVec.ofNat 32 (2 + 16 * 3 + 256 * s.failMark) := by
  have hlt := failMark_lt s
  rw [statusError, Error.field, BitVec.toNat_ofNat, Nat.mod_eq_of_lt (by omega), Error.code]

/-- Settles O17: each clause is the first check that fails, and none of the checks reads PBUF. -/
theorem tcphdrErrorsInOrder : Obligations.TcphdrErrorsInOrder := by
  refine fun p s => ⟨fun hmark => ?_, fun hclear hsport => ?_, fun hclear hsport hdport => ?_,
    fun hclear hsport hdport hwindow => ?_, fun hclear hsport hdport hwindow hplen => ?_⟩
  · rw [← statusError_failMark]
    exact exec_tcphdr_of_failed hmark
  · exact exec_tcphdr_of_prepare_error hclear (tcpPrepare_of_sport hsport)
  · exact exec_tcphdr_of_prepare_error hclear (tcpPrepare_of_dport hsport hdport)
  · exact exec_tcphdr_of_prepare_error hclear (tcpPrepare_of_window hsport hdport hwindow)
  · exact exec_tcphdr_of_prepare_error hclear (tcpPrepare_of_plen hsport hdport hwindow hplen)

/-! ### The header bytes -/

/-- R143: over a payload of PLEN bytes the TCP builder makes the reference header. -/
theorem tcpBuild_eq_tcpBytes {s : State} {p : Place} {front : BitString} (h : tcpPrepare p s = .ok front)
    (b : Nat → Byte) :
    tcpBuild p s ((List.range s.plen.toNat).map b) = .ok (bitsOf (tcpBytes s p b)) := by
  obtain ⟨e, he, -⟩ | ⟨front', t, hfront, hbuild, -, himage⟩ :=
    tcpBuild_spec (s := s) (p := p) (pay := (List.range s.plen.toNat).map b) (by simp)
  · cases h.symm.trans he
  · rw [sum_wordsOf_tcpInput hfront] at himage
    rw [hbuild, tcpImage_eq_bytes himage, tcpBytes_eq]

/-- Settles O16: the builder's bits are those of the reference bytes, which `bytes_of` gives back. -/
theorem tcphdrLeavesTheHeaderBytes : Obligations.TcphdrLeavesTheHeaderBytes := by
  intro p s b hwf hpay hclear hsport hdport hwindow hplen
  obtain ⟨front, hprep⟩ := tcpPrepare_of_fits (p := p) hsport hdport hwindow hplen
  have hpayload : s.payload = .ok ((List.range s.plen.toNat).map b) :=
    Memory.readBlock_of_written hwf (fun k hk => by rw [Nat.zero_add]; exact hpay k hk)
  have hresult : tcphdrResult p s ((List.range s.plen.toNat).map b) = .ok (.output (tcpBytes s p b)) := by
    simp only [tcphdrResult, resolved_of_clear hclear, tcpBuild_eq_tcpBytes hprep b, bytesOf_bitsOf]
  rw [exec_eq, commandResult, hpayload, inputResult, hresult]
  rfl

end Sys2Proof.Machine
end

section
/-! The flags of every header the block leaves (R142, R148). -/

namespace Sys2Proof.Machine

/-- A header that is built is one of the layout, whatever its checksum. -/
theorem tcpBuild_bytes {s : State} {p : Place} {pay : List Byte} (hpay : pay.length = s.plen.toNat) {t : BitString}
    (h : tcpBuild p s pay = .ok t) : ∃ c, bytesOf t = tcpBytesWith s p c := by
  obtain ⟨e, -, he⟩ | ⟨front, t', -, ht', -, himage⟩ := tcpBuild_spec (p := p) hpay
  · cases h.symm.trans he
  · obtain rfl := Except.ok.inj (ht'.symm.trans h)
    exact ⟨_, by rw [tcpImage_eq_bytes himage, bytesOf_bitsOf]⟩

theorem tcphdrResult_ok {p : Place} {s : State} {pay : List Byte} {res : Result} (h : tcphdrResult p s pay = .ok res) :
    ∃ t, tcpBuild p s pay = .ok t ∧ res = .output (bytesOf t) := by
  unfold tcphdrResult at h
  split at h
  · cases h
  · split at h
    · cases h
    · rename_i t hbuild
      exact ⟨t, hbuild, (Except.ok.inj h).symm⟩

/-- R140: a TCPHDR that succeeds leaves the bytes of `tcp_build` in OBUF. -/
theorem exec_tcphdr_done {p : Place} {s s' : State} (hexec : exec (.tcphdr p) s = .next s') (hdone : s'.done = true) :
    ∃ pay t, s.payload = .ok pay ∧ tcpBuild p s pay = .ok t ∧ s' = s.finishOutput (bytesOf t) := by
  obtain ⟨r, hr, rfl⟩ := (exec_next_iff _ _ _).1 hexec
  obtain ⟨res, rfl⟩ := State.settle_done hdone
  obtain ⟨pay, hpay, hbuild⟩ | ⟨k, e, -, -, he⟩ := inputResult_cases hr
  · obtain ⟨t, ht, rfl⟩ := tcphdrResult_ok hbuild.symm
    exact ⟨pay, t, hpay, ht, rfl⟩
  · cases he

/-- Bytes that stand in an output behind others. -/
theorem State.read_finishOutput_middle (s : State) (pre bs post : List Byte) {k : Nat} (h : k < bs.length) :
    Memory.read (s.finishOutput (pre ++ bs ++ post)).obuf (pre.length + k) = bs[k]? := by
  have hread := Memory.read_writeBlock_inside s.obuf 0 (pre ++ bs ++ post) (k := pre.length + k)
    (by rw [List.length_append, List.length_append]; omega)
  rw [Nat.zero_add, List.append_assoc, List.getElem?_append_right (by omega), Nat.add_sub_cancel_left,
    List.getElem?_append_left h, ← List.append_assoc] at hread
  exact hread

/-- R140, R180: the TCP header stands at index 0 after TCPHDR and at index 20 after ASSEMBLE. -/
theorem exec_done_tcpBytes {p : Place} {s s' : State} {start : Nat} (hdone : s'.done = true)
    (hexec : (exec (.tcphdr p) s = .next s' ∧ start = 0) ∨ (exec (.assemble p) s = .next s' ∧ start = 20)) :
    ∃ c, ∀ k < 20, Memory.read s'.obuf (start + k) = (tcpBytesWith s p c)[k]? := by
  obtain ⟨htcp, rfl⟩ | ⟨hasm, rfl⟩ := hexec
  · obtain ⟨pay, t, hpay, hbuild, rfl⟩ := exec_tcphdr_done htcp hdone
    obtain ⟨c, hbytes⟩ := tcpBuild_bytes (payload_length hpay) hbuild
    rw [hbytes]
    refine ⟨c, fun k hk => ?_⟩
    have hread := s.read_finishOutput_middle [] (tcpBytesWith s p c) [] hk
    rwa [List.append_nil] at hread
  · obtain ⟨pay, h, t, hpay, hip, hbuild, rfl⟩ := exec_assemble_done hasm hdone
    obtain ⟨c, hbytes⟩ := tcpBuild_bytes (payload_length hpay) hbuild
    obtain ⟨-, -, hlen, -⟩ := ipBuild_ok hip
    rw [hbytes]
    refine ⟨c, fun k hk => ?_⟩
    have hread := s.read_finishOutput_middle (bytesOf h) (tcpBytesWith s p c) pay hk
    rwa [bytesOf_header_length hlen] at hread

/-- Settles O18: bytes 12 and 13 of the layout, whatever the checksum. -/
theorem placementSetsTheFlags : Obligations.PlacementSetsTheFlags := by
  intro p s s' start hdone hexec
  obtain ⟨c, hread⟩ := exec_done_tcpBytes hdone hexec
  refine ⟨hread 12 (by decide), _, hread 13 (by decide), ?_⟩
  cases p <;> decide

/-- Settles O32: SYN marks FIRST and FIN marks LAST (`placementSetsTheFlags`), and no placement is both. -/
theorem synAndFinAreNeverBothSet : Obligations.SynAndFinAreNeverBothSet := by
  rintro p s s' f hdone hexec ⟨hsyn, hfin⟩
  obtain ⟨start, hplace, hread⟩ : ∃ start,
      ((exec (.tcphdr p) s = .next s' ∧ start = 0) ∨ (exec (.assemble p) s = .next s' ∧ start = 20)) ∧
        Memory.read s'.obuf (start + 13) = some f := by
    obtain ⟨htcp, hread⟩ | ⟨hasm, hread⟩ := hexec
    · exact ⟨0, .inl ⟨htcp, rfl⟩, hread⟩
    · exact ⟨20, .inr ⟨hasm, rfl⟩, hread⟩
  obtain ⟨-, g, hg, -, hfirst, hlast, -⟩ := placementSetsTheFlags p s s' start hdone hplace
  obtain rfl := Option.some.inj (hg.symm.trans hread)
  rw [hfirst, decide_eq_true_eq] at hsyn
  rw [hlast, decide_eq_true_eq] at hfin
  cases hsyn.symm.trans hfin

end Sys2Proof.Machine
end

section
/-! The pieces of a bit string as digits of its number (R8, R9, R51), and fields that fit as the number they spell. -/

namespace Sys2Proof.Machine

/-! ### Digits (R8) -/

theorem num_append_div (b t : BitString) : num (b ++ t) / 2 ^ t.length = num b := by
  rw [num_append, Nat.add_comm, Nat.add_mul_div_right _ _ (Nat.two_pow_pos _), Nat.div_eq_of_lt (num_lt t), Nat.zero_add]

/-- A digit of `k` bits within the back part does not depend on the front part. -/
theorem num_append_div_mod (b : BitString) {t : BitString} {n k : Nat} (h : n + k ≤ t.length) :
    num (b ++ t) / 2 ^ n % 2 ^ k = num t / 2 ^ n % 2 ^ k := by
  obtain ⟨d, hd⟩ := Nat.exists_eq_add_of_le h
  have hshift : num b * 2 ^ t.length = num b * 2 ^ d * 2 ^ k * 2 ^ n := by rw [hd]; ring
  rw [num_append, hshift, Nat.add_comm, Nat.add_mul_div_right _ _ (Nat.two_pow_pos _), Nat.add_mul_mod_self_right]

/-- The pieces of `k` bits are the digits of the number in base `2^k`, the most significant first. -/
theorem map_num_pieces {k m : Nat} {b : BitString} (h : b.length = k * m) :
    (pieces k m b).map num = (List.range m).map (fun j => num b / 2 ^ (k * (m - 1 - j)) % 2 ^ k) := by
  induction m generalizing b with
  | zero => rfl
  | succ m ih =>
    rw [Nat.mul_succ] at h
    obtain ⟨p, t, rfl, hp, ht⟩ : ∃ p t, b = p ++ t ∧ p.length = k ∧ t.length = k * m :=
      ⟨b.take k, b.drop k, (List.take_append_drop k b).symm, by rw [List.length_take]; omega,
        by rw [List.length_drop]; omega⟩
    rw [pieces_append hp, List.map_cons, ih ht, List.range_succ_eq_map, List.map_cons, List.map_map]
    congr 1
    · rw [Nat.sub_zero, Nat.add_sub_cancel, ← ht, num_append_div, ← hp, Nat.mod_eq_of_lt (num_lt p)]
    · refine List.map_congr_left fun j hj => ?_
      have hj := List.mem_range.1 hj
      have hwithin : k * (m - 1 - j) + k ≤ t.length := by
        rw [ht, ← Nat.mul_succ]
        exact Nat.mul_le_mul_left k (by omega)
      rw [Function.comp_apply, show m + 1 - 1 - j.succ = m - 1 - j by omega, num_append_div_mod p hwithin]

/-- R9: whole bytes are the big-endian bytes of their number. -/
theorem bytesOf_eq_bigEndian {n : Nat} {b : BitString} (h : b.length = 8 * n) : bytesOf b = bigEndian n (num b) := by
  have hbyte : (fun p => BitVec.ofNat 8 (num p)) = BitVec.ofNat 8 ∘ num := rfl
  rw [bytesOf, show b.length / 8 = n by omega, hbyte, ← List.map_map, map_num_pieces h, List.map_map, bigEndian]
  exact List.map_congr_left fun _ _ => BitVec.eq_of_toNat_eq (by simp)

/-- R51: the words of a 160-bit header add up to the words of its number. -/
theorem sum_wordsOf_header {b : BitString} (h : b.length = 160) : (wordsOf b).sum = tenWordSum (num b) := by
  rw [wordsOf, show b.length / 16 = 10 by omega, map_num_pieces h, ← List.sum_reverse, tenWordSum]
  rfl

/-! ### Fields as (value, width) pairs (R34) -/

/-- R34: the pair of a header field, without its ERRFIELD id. -/
def HeaderField.pair (f : HeaderField) : Nat × Nat := (f.value, f.width)

theorem spelled_concat (ps : List (Nat × Nat)) (p : Nat × Nat) :
    spelled (ps ++ [p]) = spelled ps * 2 ^ p.2 + p.1 := by
  rw [spelled, List.foldl_append]
  rfl

/-- Fields that fit widths of 1 or more spell the number of their pairs. -/
theorem num_image_eq_spelled {fs : List HeaderField} (h : ∀ f ∈ fs, 1 ≤ f.width ∧ f.Fits) :
    num (fs.flatMap HeaderField.image) = spelled (fs.map HeaderField.pair) := by
  induction fs using List.reverseRecOn with
  | nil => rfl
  | append_singleton fs f ih =>
    rw [List.forall_mem_append, List.forall_mem_singleton] at h
    obtain ⟨hinit, hwidth, hfits⟩ := h
    rw [List.flatMap_append, List.flatMap_singleton, num_append, ih hinit, HeaderField.num_image hfits,
      HeaderField.image_length, HeaderField.bitCount, if_neg (by omega), List.map_append, List.map_singleton,
      spelled_concat, HeaderField.pair]

/-- R161: the first field that does not fit is reported, by its place in the list. -/
theorem encFields_of_overflow_at {fs : List HeaderField} {k : Nat} {f : HeaderField} (hf : fs[k]? = some f)
    (hover : ¬ f.Fits) (hbefore : ∀ j < k, ∀ g, fs[j]? = some g → g.Fits) :
    encFields fs = .error (.overflow f.id) := by
  obtain ⟨hk, hfk⟩ := List.getElem?_eq_some_iff.1 hf
  rw [← List.take_append_drop k fs, List.drop_eq_getElem_cons hk, hfk]
  refine encFields_first_overflow (fun g hg => ?_) hover
  obtain ⟨j, hj, rfl⟩ := List.mem_take_iff_getElem.1 hg
  exact hbefore j (by omega) _ (List.getElem?_eq_getElem _)

end Sys2Proof.Machine
end

section
/-! IPHDR (R160, R164): the order of its errors, and the header it leaves in any configuration whose fields fit. -/

namespace Sys2Proof.Machine

/-! ### The thirteen fields (R161) -/

theorem ipPairs_eq (s : State) (c : Nat) : ipPairs s c = (ipFields s (totalLength s) c).map HeaderField.pair := rfl

theorem forall_mem_ipPairs {s : State} {c : Nat} {P : Nat × Nat → Prop} :
    (∀ p ∈ ipPairs s c, P p) ↔ ∀ f ∈ ipFields s (totalLength s) c, P f.pair := by
  rw [ipPairs_eq, List.forall_mem_map]

/-- R201: the ERRFIELD of an IPv4 field is its place in the header. -/
theorem ipFields_id_eq {s : State} {total c k : Nat} {f : HeaderField} (hf : (ipFields s total c)[k]? = some f) :
    k < 13 ∧ f.id = BitVec.ofNat 8 k := by
  have hids : (ipFields s total c).map HeaderField.id = (List.range 13).map (BitVec.ofNat 8) := rfl
  obtain ⟨hlt, -⟩ := List.getElem?_eq_some_iff.1 hf
  have hk : k < 13 := hlt
  have hid := congrArg (·[k]?) hids
  simp only [List.getElem?_map, hf, List.getElem?_range hk, Option.map_some] at hid
  exact ⟨hk, Option.some.inj hid⟩

/-- The checksum is the eleventh field, and only that field depends on it. -/
theorem ipFields_eq_around_checksum (s : State) (total c : Nat) :
    ipFields s total c =
      (ipFields s total 0).take 10 ++ ⟨0x0A, c, s.cfg.ipw.checksum⟩ :: (ipFields s total 0).drop 11 := rfl

/-! ### The builder, check by check (R164) -/

section
variable {s : State}

theorem ipBuild_of_long (h : 65535 < totalLength s) : ipBuild s = .error (.overflow 0x04) := if_pos h

theorem ipBuild_of_image_error (hle : totalLength s ≤ 65535) {e : Error}
    (h : ipImage s (totalLength s) 0 = .error e) : ipBuild s = .error e := by
  rw [ipBuild, if_neg (Nat.not_lt.2 hle), h]

theorem ipBuild_of_wrong_length (hle : totalLength s ≤ 65535) {h0 : BitString}
    (h : ipImage s (totalLength s) 0 = .ok h0) (hlen : ¬ (h0.length = 160 ∧ s.cfg.ipw.sum = 160)) :
    ipBuild s = .error .headerLength := by
  rw [ipBuild, if_neg (Nat.not_lt.2 hle), h]
  exact if_neg hlen

theorem ipBuild_of_image (hle : totalLength s ≤ 65535) {h0 : BitString} (h : ipImage s (totalLength s) 0 = .ok h0)
    (hlen : h0.length = 160) (hsum : s.cfg.ipw.sum = 160) :
    ipBuild s = ipImage s (totalLength s) (refChecksum (wordsOf h0).sum) := by
  rw [ipBuild, if_neg (Nat.not_lt.2 hle), h]
  simp only [hlen, hsum, and_self, if_true, cks_of_words (show h0.length % 16 = 0 by omega)]

theorem exec_iphdr_of_error (hclear : s.failMark = 0) {e : Error} (h : ipBuild s = .error e) :
    exec .iphdr s = .next (s.raise e) := by
  rw [exec_eq, commandResult, iphdrResult, resolved_of_clear hclear, h]
  rfl

/-- R160: what the builder builds is 20 bytes, and IPHDR holds them. -/
theorem exec_iphdr_of_build (hclear : s.failMark = 0) {b : BitString} (h : ipBuild s = .ok b) :
    exec .iphdr s = .next (s.holding (bytesOf b) 20) := by
  obtain ⟨-, -, hlen, -⟩ := ipBuild_ok h
  rw [← bytesOf_header_length hlen, exec_eq, commandResult, iphdrResult, resolved_of_clear hclear, h]
  rfl

theorem exec_iphdr_of_failed (h : s.failMark ≠ 0) :
    exec .iphdr s = .next (s.raise (.addressResolution (BitVec.ofNat 8 s.failMark))) :=
  (exec_next_iff _ _ _).2 ⟨_, commandResult_of_unresolved (by simp) (resolved_of_failed h), rfl⟩

/-- R180, R181: an error of the IPv4 builder is ASSEMBLE's outcome, whatever PBUF holds. -/
theorem exec_assemble_of_ipBuild_error {p : Place} (hclear : s.failMark = 0) {e : Error} (h : ipBuild s = .error e) :
    exec (.assemble p) s = .next (s.raise e) := by
  have hresolved := resolved_of_clear hclear
  have hresult : commandResult (.assemble p) s = .ok (.error e) :=
    inputResult_of_error (by simp only [assembleChecks, hresolved, h])
      (fun pay => by simp only [assembleResult, hresolved, h])
  exact (exec_next_iff _ _ _).2 ⟨_, hresult, rfl⟩

/-! ### Which error the fields and the widths give (R161, R163) -/

theorem totalLength_le (hplen : s.plen.toNat ≤ 65495) : totalLength s ≤ 65535 := Nat.add_le_add_left hplen 40

theorem ipBuild_of_overflow_at (hplen : s.plen.toNat ≤ 65495) {k : Nat} {p : Nat × Nat}
    (hp : (ipPairs s 0)[k]? = some p) (hover : ¬ fits p)
    (hbefore : ∀ j < k, ∀ q, (ipPairs s 0)[j]? = some q → fits q) :
    k < 13 ∧ ipBuild s = .error (.overflow (BitVec.ofNat 8 k)) := by
  simp only [ipPairs_eq, List.getElem?_map, Option.map_eq_some_iff] at hp hbefore
  obtain ⟨f, hf, rfl⟩ := hp
  obtain ⟨hk, hid⟩ := ipFields_id_eq hf
  rw [← hid]
  exact ⟨hk, ipBuild_of_image_error (totalLength_le hplen)
    (encFields_of_overflow_at hf hover fun j hj g hg => hbefore j hj _ ⟨g, hg, rfl⟩)⟩

/-- R163: a header whose fields fit has the wrong length, or a width of 0 (log entry 5). -/
theorem ipBuild_of_wrong_widths (hplen : s.plen.toNat ≤ 65495) (hfits : ∀ p ∈ ipPairs s 0, fits p)
    (hbad : s.cfg.ipw.sum ≠ 160 ∨ ∃ p ∈ ipPairs s 0, p.2 = 0) : ipBuild s = .error .headerLength := by
  have himage := encFields_of_fits (forall_mem_ipPairs.1 hfits)
  refine ipBuild_of_wrong_length (totalLength_le hplen) himage fun ⟨hlen, hsum⟩ => ?_
  have hwidths : ∀ f ∈ ipFields s (totalLength s) 0, f.width ≠ 0 :=
    no_zero_width (by rw [← fields_length, hlen, ipFields_widths, hsum])
  obtain hne | ⟨p, hp, hzero⟩ := hbad
  · exact hne hsum
  · exact forall_mem_ipPairs (P := fun p => p.2 ≠ 0).2 hwidths p hp hzero

/-- R163: fields that fit widths of 1 or more take the sum of the widths. -/
theorem ipFields_image_length {total c : Nat} (h : ∀ f ∈ ipFields s total c, 1 ≤ f.width) :
    ((ipFields s total c).flatMap HeaderField.image).length = s.cfg.ipw.sum := by
  rw [fields_length, bits_of_nonzero_widths fun f hf => Nat.one_le_iff_ne_zero.1 (h f hf), ipFields_widths]

/-- R164: with the widths right, the checksum is that of the number the fields spell, and all that is left is to put it
into its field. -/
theorem ipBuild_of_right_widths (hplen : s.plen.toNat ≤ 65495) (hfits : ∀ p ∈ ipPairs s 0, 1 ≤ p.2 ∧ fits p)
    (hsum : s.cfg.ipw.sum = 160) :
    ipBuild s = ipImage s (totalLength s) (refChecksum (tenWordSum (spelled (ipPairs s 0)))) := by
  have hfields := forall_mem_ipPairs.1 hfits
  have hlen := (ipFields_image_length fun f hf => (hfields f hf).1).trans hsum
  rw [ipBuild_of_image (totalLength_le hplen) (encFields_of_fits fun f hf => (hfields f hf).2) hlen hsum,
    sum_wordsOf_header hlen, num_image_eq_spelled hfields, ipPairs_eq]

/-- R164: a checksum that does not fit its width is the one field that can fail now. -/
theorem ipImage_of_checksum_overflow {total c : Nat} (hfits : ∀ f ∈ ipFields s total 0, f.Fits)
    (hwidth : 1 ≤ s.cfg.ipw.checksum) (hover : 2 ^ s.cfg.ipw.checksum ≤ c) :
    ipImage s total c = .error (.overflow 0x0A) := by
  rw [ipImage, ipFields_eq_around_checksum]
  refine encFields_first_overflow (fun f hf => hfits f (List.mem_of_mem_take hf)) ?_
  simp only [HeaderField.Fits]
  omega

/-- The checksum's own field aside, the fields do not depend on its value. -/
theorem forall_mem_ipFields_withChecksum {total c : Nat} {P : HeaderField → Prop} (h : ∀ f ∈ ipFields s total 0, P f)
    (hc : P ⟨0x0A, c, s.cfg.ipw.checksum⟩) : ∀ f ∈ ipFields s total c, P f := by
  rw [ipFields_eq_around_checksum]
  intro f hf
  obtain hf | hf := List.mem_append.1 hf
  · exact h f (List.mem_of_mem_take hf)
  · obtain rfl | hf := List.mem_cons.1 hf
    · exact hc
    · exact h f (List.mem_of_mem_drop hf)

end

theorem statusError_overflow {k : Nat} (hk : k < 13) :
    statusError (.overflow (BitVec.ofNat 8 k)) = BitVec.ofNat 32 (2 + 16 * 1 + 256 * k) := by
  rw [statusError, Error.field, BitVec.toNat_ofNat, Nat.mod_eq_of_lt (by omega), Error.code]

theorem State.raise_eq_reporting {s : State} {e : Error} {w : Word} (h : statusError e = w) :
    s.raise e = s.reporting w := by
  subst h
  rfl

/-- Settles O21: each clause is the first check of `ip_build` that fails. -/
theorem iphdrErrorsInOrder : Obligations.IphdrErrorsInOrder := by
  refine fun s => ⟨fun hmark => ?_, fun hclear hlong => ?_, fun hclear hplen k p hp hover hbefore => ?_,
    fun hclear hplen hfits hbad => ?_, fun hclear hplen hfits hsum hover => ?_⟩
  · rw [exec_iphdr_of_failed hmark, State.raise_eq_reporting (statusError_failMark s)]
  · exact exec_iphdr_of_error hclear (ipBuild_of_long (by rw [totalLength]; omega))
  · obtain ⟨hk, hbuild⟩ := ipBuild_of_overflow_at hplen hp hover hbefore
    rw [exec_iphdr_of_error hclear hbuild, State.raise_eq_reporting (statusError_overflow hk)]
  · exact exec_iphdr_of_error hclear (ipBuild_of_wrong_widths hplen hfits hbad)
  · obtain ⟨hwidth, -⟩ := hfits (0, s.cfg.ipw.checksum) (by simp [ipPairs])
    have himage := ipImage_of_checksum_overflow (forall_mem_ipPairs.1 fun p hp => (hfits p hp).2) hwidth hover
    exact exec_iphdr_of_error hclear ((ipBuild_of_right_widths hplen hfits hsum).trans himage)

/-- Settles O20: with the checksum in its field the fields still fit, and 160 bits are the 20 big-endian bytes of their
number. -/
theorem iphdrOfAnyConfiguration : Obligations.IphdrOfAnyConfiguration := by
  intro s hclear hplen hfits hsum c hc
  obtain ⟨hwidth, -⟩ := hfits (0, s.cfg.ipw.checksum) (by simp [ipPairs])
  have hfields : ∀ f ∈ ipFields s (totalLength s) c, 1 ≤ f.width ∧ f.Fits :=
    forall_mem_ipFields_withChecksum (forall_mem_ipPairs.1 hfits) ⟨hwidth, .inr hc⟩
  have hlen := (ipFields_image_length fun f hf => (hfields f hf).1).trans hsum
  have hbuild : ipBuild s = .ok _ :=
    (ipBuild_of_right_widths hplen hfits hsum).trans (encFields_of_fits fun f hf => (hfields f hf).2)
  rw [exec_iphdr_of_build hclear hbuild, bytesOf_eq_bigEndian (n := 20) hlen, num_image_eq_spelled hfields, ipPairs_eq]

end Sys2Proof.Machine
end

section
/-! The IPv4 header as bytes where the fields have the default widths (R74, R165, R167): what the thirteen fields spell
for any checksum and TTL, the words those bytes make, and what IPHDR leaves. -/

namespace Sys2Proof.Machine

/-! ### The thirteen fields (R74) -/

/-- R74 byte by byte, with any TTL and any value in the checksum field. -/
def ipBytesWith (s : State) (c : Nat) : List Byte :=
  [0x45, 0x00] ++ (bytes16 (40 + s.plen.toNat) ++ (bytes16 s.cfg.ipId ++ ([0x40, 0x00] ++
    ([BitVec.ofNat 8 s.cfg.ttl, 0x06] ++ (bytes16 c ++ (bytes32 s.srcaddr ++ bytes32 s.dstaddr))))))

theorem ipBytesWith_length (s : State) (c : Nat) : (ipBytesWith s c).length = 20 := rfl

theorem ipBytes_eq {s : State} (httl : s.cfg.ttl = 255) : ipBytes s = ipBytesWith s (refChecksum (ipSum s)) := by
  rw [ipBytesWith, httl]
  rfl

theorem spell_eq_byte (v : Nat) : spell 8 v = bitsOf [BitVec.ofNat 8 v] :=
  eq_of_num_eq rfl (by simp [bitsOf_cons, num_spell])

/-- R51: a number of 16 bits is its high byte and its low byte. -/
theorem bytes16_toNat {v : Nat} (h : v ≤ 65535) :
    (BitVec.ofNat 8 (v / 256)).toNat * 256 + (BitVec.ofNat 8 v).toNat = v := by
  rw [BitVec.toNat_ofNat, BitVec.toNat_ofNat]
  omega

section
variable {s : State} {c : Nat} {b : BitString}

/-- A header image is the bits of its 20 bytes. -/
theorem ipImage_eq_bytes (hw : s.cfg.ipw = IpWidths.standard) (h : ipImage s (totalLength s) c = .ok b) :
    b = bitsOf (ipBytesWith s c) := by
  obtain ⟨-, rfl⟩ := encFields_ok h
  have hfields : (ipFields s (totalLength s) c).flatMap HeaderField.image =
      (spell 4 4 ++ (spell 4 5 ++ (spell 6 0 ++ spell 2 0))) ++ (spell 16 (40 + s.plen.toNat) ++
        (spell 16 s.cfg.ipId ++ ((spell 3 2 ++ spell 13 0) ++ ((spell 8 s.cfg.ttl ++ spell 8 6) ++
          (spell 16 c ++ (spell 32 s.srcaddr.toNat ++ spell 32 s.dstaddr.toNat)))))) := by
    rw [ipFields, hw]
    rfl
  have hversion : spell 4 4 ++ (spell 4 5 ++ (spell 6 0 ++ spell 2 0)) = bitsOf [0x45, 0x00] := rfl
  have hflags : spell 3 2 ++ spell 13 0 = bitsOf [0x40, 0x00] := rfl
  rw [hfields, hversion, hflags]
  simp only [spell_eq_byte, spell_eq_bytes16, spell_eq_bytes32, ← bitsOf_append]
  rfl

/-- R167: the words of a header image add up field by field. -/
theorem sum_wordsOf_ipImage (hw : s.cfg.ipw = IpWidths.standard) (h : ipImage s (totalLength s) c = .ok b) :
    (wordsOf b).sum = 0x4500 + (40 + s.plen.toNat) + s.cfg.ipId + 0x4000 + (s.cfg.ttl * 256 + 6)
      + hi16 s.srcaddr + lo16 s.srcaddr + hi16 s.dstaddr + lo16 s.dstaddr + c := by
  obtain ⟨hfits, -⟩ := encFields_ok h
  simp only [ipFields, hw, IpWidths.standard, totalLength, List.forall_mem_cons, HeaderField.Fits] at hfits
  obtain ⟨-, -, -, -, htotal, hid, -, -, httl, -, hc, -⟩ := hfits
  have hversion : ∀ bs, wordsOf (bitsOf ([0x45, 0x00] ++ bs)) = 0x4500 :: wordsOf (bitsOf bs) := wordsOf_two_bytes _ _
  have hflags : ∀ bs, wordsOf (bitsOf ([0x40, 0x00] ++ bs)) = 0x4000 :: wordsOf (bitsOf bs) := wordsOf_two_bytes _ _
  have hprotocol : ∀ bs, wordsOf (bitsOf ([BitVec.ofNat 8 s.cfg.ttl, 0x06] ++ bs)) =
      (s.cfg.ttl * 256 + 6) :: wordsOf (bitsOf bs) := fun bs => by
    rw [List.cons_append, List.singleton_append, wordsOf_two_bytes, BitVec.toNat_ofNat, Nat.mod_eq_of_lt (by omega)]
    rfl
  have hend : wordsOf (bitsOf (bytes32 s.dstaddr)) = [hi16 s.dstaddr, lo16 s.dstaddr] := by
    rw [← spell_eq_bytes32, wordsOf_spell_word]
  rw [ipImage_eq_bytes hw h, ipBytesWith, hversion, wordsOf_bytes16 (by omega), wordsOf_bytes16 (by omega), hflags,
    hprotocol, wordsOf_bytes16 (by omega), wordsOf_bytes32, hend]
  simp only [List.sum_cons, List.sum_nil]
  omega

/-! ### What IPHDR leaves (R160, R164) -/

theorem ipFields_standard_fit (hw : s.cfg.ipw = IpWidths.standard) (httl : s.cfg.ttl ≤ 255) (hid : s.cfg.ipId ≤ 65535)
    (hplen : s.plen.toNat ≤ 65495) (hc : c ≤ 65535) : ∀ f ∈ ipFields s (totalLength s) c, f.Fits := by
  have hsrc := word_lt s.srcaddr
  have hdst := word_lt s.dstaddr
  simp only [ipFields, hw, IpWidths.standard, totalLength, List.forall_mem_cons, HeaderField.Fits]
  refine ⟨?_, ?_, ?_, ?_, ?_, ?_, ?_, ?_, ?_, ?_, ?_, ?_, ?_, by simp⟩ <;> omega

/-- R165: an IPHDR that succeeds leaves the layout's bytes, with the checksum of the image with checksum 0. -/
theorem exec_iphdr_done_bytes {s' : State} (hw : s.cfg.ipw = IpWidths.standard) (hexec : exec .iphdr s = .next s')
    (hdone : s'.done = true) :
    ∃ h0, ipImage s (totalLength s) 0 = .ok h0 ∧
      ∀ k < 20, Memory.read s'.obuf k = some ((ipBytesWith s (refChecksum (wordsOf h0).sum)).getD k 0) := by
  obtain ⟨h, hbuild, rfl⟩ := exec_iphdr_done hexec hdone
  obtain ⟨-, -, -, -, h0, hzero, -, hfull⟩ := ipBuild_ok hbuild
  refine ⟨h0, hzero, fun k hk => ?_⟩
  rw [ipImage_eq_bytes hw hfull, bytesOf_bitsOf]
  exact s.read_finishOutput hk

/-- R167: the checksum input sums to the reference sum. -/
theorem sum_wordsOf_ipInput (hw : s.cfg.ipw = IpWidths.standard) (httl : s.cfg.ttl = 255)
    (h : ipImage s (totalLength s) 0 = .ok b) : (wordsOf b).sum = ipSum s := by
  rw [sum_wordsOf_ipImage hw h, httl]
  rfl

end

/-- The bytes of the layout with bytes 10 and 11 taken as 0 are those of the layout with checksum 0. -/
theorem ipBytesWith_zeroed (s : State) (c : Nat) :
    (List.range 20).map (fun k => if k = 10 ∨ k = 11 then 0 else (ipBytesWith s c).getD k 0) = ipBytesWith s 0 := rfl

theorem refChecksum_ne_of_pos {n : Nat} (h : n ≠ 0) : refChecksum n ≠ 0xFFFF := by
  have hpos : foldedSum n ≠ 0 := mt (foldedSum_eq_zero_iff n).1 h
  rw [refChecksum]
  omega

/-- Settles O19: the image with checksum 0 sums to `ipSum`, so the builder's bits are those of the reference bytes. -/
theorem iphdrLeavesTheHeaderBytes : Obligations.IphdrLeavesTheHeaderBytes := by
  intro s hw httl hid hclear hplen
  have himage : ∀ c ≤ 65535, ∃ b, ipImage s (totalLength s) c = .ok b := fun c hc =>
    ⟨_, encFields_of_fits (ipFields_standard_fit hw httl.le hid hplen hc)⟩
  obtain ⟨h0, hzero⟩ := himage 0 (by decide)
  obtain ⟨b, hfull⟩ := himage (refChecksum (ipSum s)) (refChecksum_le _)
  have hlen : h0.length = 160 := by rw [ipImage_eq_bytes hw hzero, bitsOf_length, ipBytesWith_length]
  have hbuild : ipBuild s = .ok b := by
    rw [ipBuild_of_image (totalLength_le hplen) hzero hlen (by rw [hw]; rfl), sum_wordsOf_ipInput hw httl hzero, hfull]
  rw [exec_iphdr_of_build hclear hbuild, ipImage_eq_bytes hw hfull, bytesOf_bitsOf, ipBytes_eq httl]

/-- Settles O22: bytes 10 and 11 are the checksum over the image with checksum 0, whose first word is not 0. -/
theorem storedIpChecksumIsReproduced : Obligations.StoredIpChecksumIsReproduced := by
  intro s s' hw hexec hdone
  obtain ⟨h0, hzero, hread⟩ := exec_iphdr_done_bytes hw hexec hdone
  have hsum : (wordsOf h0).sum ≠ 0 := by rw [sum_wordsOf_ipImage hw hzero]; omega
  generalize hc : refChecksum (wordsOf h0).sum = c at hread
  have hstored := bytes16_toNat (hc ▸ refChecksum_le _ : c ≤ 65535)
  refine ⟨_, hread, ?_, fun hfull => refChecksum_ne_of_pos hsum ?_⟩
  · rw [← sum_wordsOf_even _ (by decide), ipBytesWith_zeroed, ← ipImage_eq_bytes hw hzero, hc]
    exact hstored
  · exact hc.trans (hstored.symm.trans hfull)

/-- Settles O23: the loop of R120 reaches the folded sum of `ipSum`. -/
theorem ipChecksumIsTheComplementOfTheSum : Obligations.IpChecksumIsTheComplementOfTheSum := by
  intro s s' hw httl hexec hdone sum
  obtain ⟨h0, hzero, hread⟩ := exec_iphdr_done_bytes hw hexec hdone
  have hfold : 0xFFFF - fold sum sum = refChecksum (wordsOf h0).sum := by
    rw [fold_eq_foldedSum (Nat.le_refl _), sum_wordsOf_ipInput hw httl hzero]
    rfl
  rw [hfold]
  exact ⟨hread 10 (by decide), hread 11 (by decide)⟩

/-- Settles O24: the length check comes first in `ip_build`, and what passes it stands in bytes 2 and 3. -/
theorem totalLengthIsCheckedWithoutWrapping : Obligations.TotalLengthIsCheckedWithoutWrapping := by
  refine fun p s hclear => ⟨fun hlong => ?_, fun s' hw hexec hdone => ?_⟩
  · exact ⟨exec_iphdr_of_error hclear (ipBuild_of_long hlong),
      exec_assemble_of_ipBuild_error hclear (ipBuild_of_long hlong)⟩
  · obtain ⟨h, hbuild, -⟩ := exec_iphdr_done hexec hdone
    obtain ⟨htotal, -⟩ := ipBuild_ok hbuild
    obtain ⟨h0, -, hread⟩ := exec_iphdr_done_bytes hw hexec hdone
    exact ⟨_, _, hread 2 (by decide), hread 3 (by decide), bytes16_toNat htotal⟩

end Sys2Proof.Machine
end

section
/-! ASSEMBLE (R180 to R184): where both builders succeed it leaves their bytes and the payload, where one fails it
reports what that one reports, and a report shows the host no byte. -/

namespace Sys2Proof.Machine

/-! ### Bytes in PBUF and in OBUF -/

section
variable {s : State} {k : Nat}

/-- R27: the payload is read byte by byte from index 0. -/
theorem payload_read (hwf : Memory.wf s.pbuf) {pay : List Byte} (hpay : s.payload = .ok pay) (hk : k < s.plen.toNat) :
    Memory.read s.pbuf k = pay[k]? := by
  obtain ⟨bs, hbs, -, hread⟩ | ⟨i, hi, -⟩ := Memory.readBlock_spec hwf 0 s.plen.toNat
  · obtain rfl := Except.ok.inj (hbs.symm.trans hpay)
    rw [← hread k hk, Nat.zero_add]
  · cases hi.symm.trans hpay

theorem State.read_finishOutput_getElem? (s : State) (bs : List Byte) (h : k < bs.length) :
    Memory.read (s.finishOutput bs).obuf k = bs[k]? := by
  rw [s.read_finishOutput h, List.getD_eq_getElem bs 0 h, List.getElem?_eq_getElem h]

/-- R183: the payload behind other output bytes is as it stands in PBUF. -/
theorem State.read_finishOutput_payload (hwf : Memory.wf s.pbuf) {pay : List Byte} (hpay : s.payload = .ok pay)
    (pre : List Byte) (hk : k < s.plen.toNat) :
    Memory.read (s.finishOutput (pre ++ pay)).obuf (pre.length + k) = Memory.read s.pbuf k := by
  have hread := s.read_finishOutput_middle pre pay [] (k := k) (by rwa [payload_length hpay])
  rwa [List.append_nil, ← payload_read hwf hpay hk] at hread

/-- Outputs of one length that leave the same OBUF are the same bytes. -/
theorem State.finishOutput_inj {bs cs : List Byte} (hlen : bs.length = cs.length)
    (h : s.finishOutput bs = s.finishOutput cs) : bs = cs := by
  refine List.ext_getElem?' fun i hi => ?_
  rw [← s.read_finishOutput_getElem? bs (by omega), h, s.read_finishOutput_getElem? cs (by omega)]

end

/-! ### Where both builders succeed (R180, R181) -/

section
variable {p : Place} {s s₁ s₂ s' : State}

/-- R204: a success of IPHDR means that both addresses are resolved. -/
theorem failMark_of_iphdr_done (hexec : exec .iphdr s = .next s') (hdone : s'.done = true) : s.failMark = 0 := by
  by_contra hmark
  cases (exec_iphdr_of_failed hmark).symm.trans hexec
  exact Bool.eq_false_iff.1 (flags_of_error rfl).1 hdone

/-- What IPHDR and TCPHDR each leave, ASSEMBLE leaves one after the other, with the payload behind. -/
theorem exec_assemble_of_builders (hip : exec .iphdr s = .next s₁) (hdone₁ : s₁.done = true)
    (htcp : exec (.tcphdr p) s = .next s₂) (hdone₂ : s₂.done = true) :
    ∃ ip tcp pay : List Byte, ip.length = 20 ∧ tcp.length = 20 ∧ s.payload = .ok pay ∧
      s₁ = s.finishOutput ip ∧ s₂ = s.finishOutput tcp ∧
        exec (.assemble p) s = .next (s.finishOutput (ip ++ tcp ++ pay)) := by
  have hclear := failMark_of_iphdr_done hip hdone₁
  obtain ⟨h, hh, rfl⟩ := exec_iphdr_done hip hdone₁
  obtain ⟨pay, t, hpay, ht, rfl⟩ := exec_tcphdr_done htcp hdone₂
  obtain ⟨-, -, hhlen, -⟩ := ipBuild_ok hh
  obtain ⟨htlen, -⟩ := tcpBuild_verifies (payload_length hpay) ht
  have hresult : assembleResult p s pay = .ok (.output (bytesOf h ++ bytesOf t ++ pay)) := by
    simp only [assembleResult, resolved_of_clear hclear, hh, ht]
  refine ⟨bytesOf h, bytesOf t, pay, bytesOf_header_length hhlen, bytesOf_header_length htlen, hpay, rfl, rfl, ?_⟩
  rw [exec_eq, commandResult, hpay, inputResult, hresult]
  rfl

/-! ### Where a builder reports an error (R181, R210) -/

/-- ERR is the mark of a report (R30, R211). -/
theorem exec_err {i : Instr} (hexec : exec i s = .next s') (herr : s'.err = true) :
    ∃ e, commandResult i s = .ok (.error e) ∧ s' = s.raise e := by
  obtain ⟨r, hr, rfl⟩ := (exec_next_iff _ _ _).1 hexec
  cases r with
  | error e => exact ⟨e, hr, rfl⟩
  | ok res =>
    have hdone : (s.settle (.ok res)).status = statusDone := by cases res <;> rfl
    exact absurd herr (Bool.eq_false_iff.1 (flags_of_done hdone).2)

theorem exec_assemble_of_failed (h : s.failMark ≠ 0) :
    exec (.assemble p) s = .next (s.raise (.addressResolution (BitVec.ofNat 8 s.failMark))) :=
  (exec_next_iff _ _ _).2 ⟨_, commandResult_of_unresolved (by simp) (resolved_of_failed h), rfl⟩

/-- R181: behind an IPv4 header that is built, an error of the TCP builder is ASSEMBLE's outcome, whatever PBUF
holds. -/
theorem exec_assemble_of_prepare_error (hclear : s.failMark = 0) {h : BitString} (hh : ipBuild s = .ok h) {e : Error}
    (he : tcpPrepare p s = .error e) : exec (.assemble p) s = .next (s.raise e) := by
  have hresolved := resolved_of_clear hclear
  have hresult : commandResult (.assemble p) s = .ok (.error e) :=
    inputResult_of_error (by simp only [assembleChecks, hresolved, hh, he])
      (fun pay => by simp only [assembleResult, hresolved, hh, tcpBuild, he])
  exact (exec_next_iff _ _ _).2 ⟨_, hresult, rfl⟩

/-- R143: with the addresses resolved, TCPHDR reports only what the builder finds before it reads the payload. -/
theorem tcpPrepare_of_tcphdr_err (hclear : s.failMark = 0) (hexec : exec (.tcphdr p) s = .next s')
    (herr : s'.err = true) : ∃ e, tcpPrepare p s = .error e ∧ s' = s.raise e := by
  obtain ⟨e, hr, rfl⟩ := exec_err hexec herr
  refine ⟨e, ?_, rfl⟩
  have hresolved := resolved_of_clear hclear
  obtain ⟨pay, hpay, hresult⟩ | ⟨k, e', -, hchecks, he⟩ := inputResult_cases hr
  · obtain ⟨e', hprep, hbuild⟩ | ⟨front, t, -, hbuild, -⟩ := tcpBuild_spec (p := p) (payload_length hpay)
    · simp only [tcphdrResult, hresolved, hbuild] at hresult
      rw [hprep, Except.error.inj hresult]
    · simp only [tcphdrResult, hresolved, hbuild] at hresult
      cases hresult
  · rw [tcphdrChecks, hresolved] at hchecks
    rw [Except.error.inj he]
    exact hchecks

/-- R181: what IPHDR reports, ASSEMBLE reports. -/
theorem exec_assemble_of_iphdr_err (hexec : exec .iphdr s = .next s') (herr : s'.err = true) :
    exec (.assemble p) s = .next s' := by
  by_cases hmark : s.failMark = 0
  · cases hh : ipBuild s with
    | error e => rw [exec_assemble_of_ipBuild_error hmark hh, ← hexec, exec_iphdr_of_error hmark hh]
    | ok h =>
      cases (exec_iphdr_of_build hmark hh).symm.trans hexec
      exact absurd herr (Bool.eq_false_iff.1 (flags_of_done rfl).2)
  · rw [exec_assemble_of_failed hmark, ← hexec, exec_iphdr_of_failed hmark]

end

/-! ### What ASSEMBLE leaves -/

/-- Settles O26: IPHDR and TCPHDR leave the reference bytes (`iphdrLeavesTheHeaderBytes`, `tcphdrLeavesTheHeaderBytes`),
and ASSEMBLE leaves both. -/
theorem assembleLeavesThePacket : Obligations.AssembleLeavesThePacket := by
  rintro p s b ⟨hwindow, httl, hw, hid⟩ hwf hpay hclear hsport hdport hplen
  have hip := iphdrLeavesTheHeaderBytes s hw httl (by omega) hclear hplen
  have htcp := tcphdrLeavesTheHeaderBytes p s b hwf hpay hclear hsport hdport (by omega) (by omega)
  obtain ⟨ip, tcp, pay, hiplen, htcplen, hread, hip', htcp', hexec⟩ :=
    exec_assemble_of_builders hip (flags_of_done rfl).1 htcp (flags_of_done rfl).1
  have hpayload : s.payload = .ok ((List.range s.plen.toNat).map b) :=
    Memory.readBlock_of_written hwf fun k hk => by rw [Nat.zero_add]; exact hpay k hk
  obtain rfl := Except.ok.inj (hread.symm.trans hpayload)
  obtain rfl : ipBytes s = ip := State.finishOutput_inj hiplen.symm hip'
  obtain rfl : tcpBytes s p b = tcp := State.finishOutput_inj htcplen.symm htcp'
  have hcount : (ipBytes s ++ tcpBytes s p b ++ (List.range s.plen.toNat).map b).length = 40 + s.plen.toNat := by
    rw [List.length_append, List.length_append, hiplen, htcplen, payload_length hread]
  rw [hexec, ← hcount]
  rfl

/-- Settles O27: `exec_assemble_of_builders`, read index by index. -/
theorem assembleIsTheTwoBuildersAndThePayload : Obligations.AssembleIsTheTwoBuildersAndThePayload := by
  intro p s s₁ s₂ b hwf hpay hip hdone₁ htcp hdone₂
  obtain ⟨ip, tcp, pay, hiplen, htcplen, hread, rfl, rfl, hexec⟩ :=
    exec_assemble_of_builders hip hdone₁ htcp hdone₂
  have hpaylen := payload_length hread
  have hfront : (ip ++ tcp).length = 40 := by rw [List.length_append, hiplen, htcplen]
  refine ⟨_, hexec, rfl, rfl, rfl, ?_, fun k hk => ?_, fun k hk => ?_, fun k hk => ?_⟩
  · rw [State.finishOutput_olen, List.length_append, hfront, hpaylen]
  · rw [s.read_finishOutput_getElem? _ (by rw [List.length_append]; omega), List.append_assoc,
      List.getElem?_append_left (by omega), s.read_finishOutput_getElem? _ (by omega)]
  · rw [← hiplen, s.read_finishOutput_middle ip tcp pay (by omega), s.read_finishOutput_getElem? _ (by omega)]
  · rw [← hfront, State.read_finishOutput_payload hwf hread (ip ++ tcp) hk, hpay k hk]

/-- Settles O28: ASSEMBLE tries IPHDR's checks first, and then those of TCPHDR. -/
theorem assembleReportsTheBuildersErrors : Obligations.AssembleReportsTheBuildersErrors := by
  refine fun p s s₁ s₂ => ⟨exec_assemble_of_iphdr_err, fun hip hdone htcp herr => ?_⟩
  have hclear := failMark_of_iphdr_done hip hdone
  obtain ⟨h, hh, -⟩ := exec_iphdr_done hip hdone
  obtain ⟨e, he, rfl⟩ := tcpPrepare_of_tcphdr_err hclear htcp herr
  exact exec_assemble_of_prepare_error hclear hh he

/-- Settles O30: the payload stands behind the 40 bytes of the two headers. -/
theorem payloadIsCopiedUnchanged : Obligations.PayloadIsCopiedUnchanged := by
  intro p s s' hwf hexec hdone
  obtain ⟨pay, h, t, hpay, hh, ht, rfl⟩ := exec_assemble_done hexec hdone
  have hpaylen := payload_length hpay
  obtain ⟨htotal, -, hhlen, -⟩ := ipBuild_ok hh
  obtain ⟨htlen, -⟩ := tcpBuild_verifies hpaylen ht
  rw [totalLength] at htotal
  have hfront : (bytesOf h ++ bytesOf t).length = 40 := by
    rw [List.length_append, bytesOf_header_length hhlen, bytesOf_header_length htlen]
  refine ⟨?_, fun k hk => ?_⟩
  · rw [State.finishOutput_olen, List.length_append, hfront, hpaylen, BitVec.toNat_ofNat, Nat.mod_eq_of_lt (by omega)]
  · have hbyte : Memory.read s.pbuf k = some _ :=
      (payload_read hwf hpay hk).trans (List.getElem?_eq_getElem (by rwa [hpaylen]))
    exact ⟨_, hbyte, by rw [← hfront, State.read_finishOutput_payload hwf hpay _ hk, hbyte]⟩

/-- Settles O31: a report clears OLEN and leaves DONE 0, which closes the gate (`outputGateShowsOnlyTheResult`). -/
theorem nothingPartialIsVisible : Obligations.NothingPartialIsVisible := by
  intro p s s' hexec herr
  obtain ⟨e, -, rfl⟩ := exec_err hexec herr
  exact ⟨s.raise_olen e, fun k => (outputGateShowsOnlyTheResult _ k).1 (.inl (flags_of_error rfl).1)⟩

end Sys2Proof.Machine
end

section
/-! The errors of R200: what a report leaves (R211), and which command makes which report on what ground. -/

namespace Sys2Proof.Machine

/-! ### A report in STATUS (R26, R211) -/

theorem State.errcode_eq (s : State) : s.errcode = s.status.toNat / 16 % 16 := by
  rw [State.errcode, BitVec.extractLsb'_toNat, Nat.shiftRight_eq_div_pow]

@[simp] theorem State.raise_errcode (s : State) (e : Error) : (s.raise e).errcode = e.code := by
  have hcode := e.code_range
  rw [State.errcode_eq, State.raise_status, statusError_toNat]
  omega

theorem State.settle_ok_status (s : State) (res : Result) : (s.settle (.ok res)).status = statusDone := by
  cases res <;> rfl

/-- R26: a result leaves ERRCODE 0. -/
@[simp] theorem State.settle_ok_errcode (s : State) (res : Result) : (s.settle (.ok res)).errcode = 0 := by
  rw [State.errcode_eq, State.settle_ok_status, statusDone_toNat]

/-- ERR is the mark of a report (R30). -/
theorem State.settle_err {s : State} {r : Except Error Result} (h : (s.settle r).err = true) : ∃ e, r = .error e := by
  cases r with
  | error e => exact ⟨e, rfl⟩
  | ok res => exact absurd h (Bool.eq_false_iff.1 (flags_of_done (s.settle_ok_status res)).2)

/-- Settles O35: a CMD write that ends in an error is `raise` at the state with CMD written and the result cleared, and
a report leaves the gate closed (`outputGateShowsOnlyTheResult`). -/
theorem errorLeavesOnlyItsReport : Obligations.ErrorLeavesOnlyItsReport := by
  intro c s s' hrun herr
  obtain ⟨r, rfl, -⟩ := runCommand_settles hrun
  obtain ⟨e, rfl⟩ := State.settle_err herr
  exact ⟨rfl, ⟨e, rfl⟩, fun k => (outputGateShowsOnlyTheResult _ k).1 (.inl (flags_of_error rfl).1)⟩

/-! ### The ground of each report (R200 to R206) -/

/-- R200 to R206: by ERRCODE, the commands that make the report and what they have found. ERRCODE 0 is no report. -/
def ReportGround (i : Instr) (s : State) : Nat → Prop
  | 0 => True
  | 1 => i ≠ .csum
  | 2 => (i = .iphdr ∨ ∃ p, i = .assemble p) ∧ s.cfg.ipw ≠ IpWidths.standard
  | 3 => s.failMark ≠ 0 ∧ i ≠ .csum ∧ ∀ pr w, i ≠ .encode pr w
  | 4 => i = .csum ∧ s.clen.toNat ≤ 524288 ∧ s.clen.toNat % 16 ≠ 0
  | 5 => i = .csum ∨ WellFormed i = false
  | _ => False

section
variable {i : Instr} {p : Place} {s s' : State} {e : Error}

theorem ReportGround.of_raise (hraise : exec i s = .next (s.raise e)) (hexec : exec i s = .next s')
    (h : ReportGround i s e.code) : ReportGround i s s'.errcode := by
  cases hraise.symm.trans hexec
  rwa [State.raise_errcode]

/-- R100: ENCODE reports a value that does not fit, and a width that no word spells (log entry 8). -/
theorem encodeResult_error_ground {pr : Bool} {w : Nat} (h : encodeResult pr w s = .error e) :
    ReportGround (.encode pr w) s e.code := by
  unfold encodeResult at h
  split at h
  · rename_i hwide
    cases h
    exact .inr (decide_eq_false (Nat.not_le.2 hwide))
  · split at h <;> cases h
    exact Instr.noConfusion

/-- R122: CSUM over whole words reports nothing. -/
theorem commandResult_csum_of_whole (hle : s.clen.toNat ≤ 524288) (hwhole : s.clen.toNat % 16 = 0) :
    commandResult .csum s ≠ .ok (.error e) := by
  intro hr
  have hchecks : csumChecks s = .ok () := (if_neg (Nat.not_lt.2 hle)).trans (if_neg (not_not.2 hwhole))
  obtain ⟨bs, hbs, he⟩ | ⟨k, e', -, hc, -⟩ := inputResult_cases hr
  · have hlen : bs.length = s.clen.toNat / 8 := Memory.readBlock_length hbs
    rw [csumResult, hchecks, cks_of_words (by rw [bitsOf_length]; omega)] at he
    cases he
  · cases hchecks.symm.trans hc

theorem exec_csum_ground (hexec : exec .csum s = .next s') (herr : s'.err = true) :
    ReportGround .csum s s'.errcode := by
  by_cases hlong : 524288 < s.clen.toNat
  · exact .of_raise (exec_csum_of_long hlong) hexec (.inl rfl)
  · have hle := Nat.not_lt.1 hlong
    by_cases hwhole : s.clen.toNat % 16 = 0
    · obtain ⟨e, hr, -⟩ := exec_err hexec herr
      exact absurd hr (commandResult_csum_of_whole hle hwhole)
    · exact .of_raise (exec_csum_of_ragged hle hwhole) hexec ⟨rfl, hle, hwhole⟩

/-- R204: the three commands that build a header report a failed resolution. -/
theorem exec_of_failed_ground (hi : i ≠ .csum ∧ ∀ pr w, i ≠ .encode pr w) (hmark : s.failMark ≠ 0)
    (hexec : exec i s = .next s') : ReportGround i s s'.errcode := by
  have hresult := commandResult_of_unresolved hi (resolved_of_failed hmark)
  exact .of_raise ((exec_next_iff _ _ _).2 ⟨_, hresult, rfl⟩) hexec ⟨hmark, hi⟩

/-- R202: the TCP builder reports overflows alone. -/
theorem tcpPrepare_error_ground (hi : i ≠ .csum) (h : tcpPrepare p s = .error e) : ReportGround i s e.code := by
  obtain rfl | rfl | rfl | rfl := tcpPrepare_error h <;> exact hi

theorem ipImage_error {total c : Nat} (h : ipImage s total c = .error e) : ∃ f, e = .overflow f := by
  obtain ⟨f, -, -, rfl⟩ := encFields_error h
  exact ⟨f.id, rfl⟩

/-- R203: with the default widths, which add to 160 and are none of them 0, `ip_build` reports overflows alone. -/
theorem ipBuild_error_of_standard (hw : s.cfg.ipw = IpWidths.standard) (h : ipBuild s = .error e) :
    ∃ f, e = .overflow f := by
  by_cases hlong : 65535 < totalLength s
  · exact ⟨0x04, Except.error.inj (h.symm.trans (ipBuild_of_long hlong))⟩
  · have hle := Nat.not_lt.1 hlong
    cases himage : ipImage s (totalLength s) 0 with
    | error e₀ =>
      obtain rfl := Except.error.inj (h.symm.trans (ipBuild_of_image_error hle himage))
      exact ipImage_error himage
    | ok h0 =>
      have hsum : s.cfg.ipw.sum = 160 := by rw [hw]; rfl
      have hwidths : ∀ f ∈ ipFields s (totalLength s) 0, 1 ≤ f.width := by simp [ipFields, hw, IpWidths.standard]
      have hlen : h0.length = 160 := by rw [(encFields_ok himage).2, ipFields_image_length hwidths, hsum]
      exact ipImage_error ((ipBuild_of_image hle himage hlen hsum).symm.trans h)

/-- R202, R203: the IPv4 builder reports overflows, and widths other than the default ones. -/
theorem ipBuild_error_ground (hi : i = .iphdr ∨ ∃ p, i = .assemble p) (h : ipBuild s = .error e) :
    ReportGround i s e.code := by
  obtain ⟨f, -, rfl⟩ | rfl := ipBuild_error h
  · obtain rfl | ⟨p, rfl⟩ := hi <;> exact Instr.noConfusion
  · refine ⟨hi, fun hw => ?_⟩
    obtain ⟨f, hf⟩ := ipBuild_error_of_standard hw h
    cases hf

theorem exec_tcphdr_ground (hclear : s.failMark = 0) (hexec : exec (.tcphdr p) s = .next s') (herr : s'.err = true) :
    ReportGround (.tcphdr p) s s'.errcode := by
  obtain ⟨e, hprep, rfl⟩ := tcpPrepare_of_tcphdr_err hclear hexec herr
  rw [State.raise_errcode]
  exact tcpPrepare_error_ground Instr.noConfusion hprep

theorem exec_iphdr_ground (hclear : s.failMark = 0) (hexec : exec .iphdr s = .next s') (herr : s'.err = true) :
    ReportGround .iphdr s s'.errcode := by
  cases hbuild : ipBuild s with
  | error e => exact .of_raise (exec_iphdr_of_error hclear hbuild) hexec (ipBuild_error_ground (.inl rfl) hbuild)
  | ok b =>
    cases (exec_iphdr_of_build hclear hbuild).symm.trans hexec
    cases (flags_of_done rfl).2.symm.trans herr

/-- R181: behind both builders' checks ASSEMBLE reports nothing. -/
theorem commandResult_assemble_of_checked (hclear : s.failMark = 0) {h front : BitString} (hbuild : ipBuild s = .ok h)
    (hprep : tcpPrepare p s = .ok front) : commandResult (.assemble p) s ≠ .ok (.error e) := by
  intro hr
  have hresolved := resolved_of_clear hclear
  obtain ⟨pay, hpay, he⟩ | ⟨k, e', -, hchecks, -⟩ := inputResult_cases hr
  · obtain ⟨e', hprep', -⟩ | ⟨front', t, -, ht, -⟩ := tcpBuild_spec (p := p) (payload_length hpay)
    · cases hprep.symm.trans hprep'
    · simp only [assembleResult, hresolved, hbuild, ht] at he
      cases he
  · simp only [assembleChecks, hresolved, hbuild, hprep] at hchecks
    cases hchecks

theorem exec_assemble_ground (hclear : s.failMark = 0) (hexec : exec (.assemble p) s = .next s')
    (herr : s'.err = true) : ReportGround (.assemble p) s s'.errcode := by
  cases hbuild : ipBuild s with
  | error e =>
    exact .of_raise (exec_assemble_of_ipBuild_error hclear hbuild) hexec
      (ipBuild_error_ground (.inr ⟨p, rfl⟩) hbuild)
  | ok h =>
    cases hprep : tcpPrepare p s with
    | error e =>
      exact .of_raise (exec_assemble_of_prepare_error hclear hbuild hprep) hexec
        (tcpPrepare_error_ground Instr.noConfusion hprep)
    | ok front =>
      obtain ⟨e, hr, -⟩ := exec_err hexec herr
      exact absurd hr (commandResult_assemble_of_checked hclear hbuild hprep)

/-- Whatever a command leaves in ERRCODE, it had the ground for it. -/
theorem exec_errcode_ground (hexec : exec i s = .next s') : ReportGround i s s'.errcode := by
  obtain ⟨r, hr, rfl⟩ := (exec_next_iff i s s').1 hexec
  cases r with
  | ok res =>
    rw [State.settle_ok_errcode]
    trivial
  | error e =>
    have herr : (s.settle (.error e)).err = true := (flags_of_error (s.raise_status e)).2
    by_cases hfailed : s.failMark ≠ 0 ∧ i ≠ .csum ∧ ∀ pr w, i ≠ .encode pr w
    · exact exec_of_failed_ground hfailed.2 hfailed.1 hexec
    · have hclear : (i ≠ .csum ∧ ∀ pr w, i ≠ .encode pr w) → s.failMark = 0 := fun hi =>
        not_not.1 fun hmark => hfailed ⟨hmark, hi⟩
      cases i with
      | encode pr w => exact .of_raise hexec hexec (encodeResult_error_ground (Except.ok.inj hr))
      | csum => exact exec_csum_ground hexec herr
      | tcphdr p => exact exec_tcphdr_ground (hclear (by simp)) hexec herr
      | iphdr => exact exec_iphdr_ground (hclear (by simp)) hexec herr
      | assemble p => exact exec_assemble_ground (hclear (by simp)) hexec herr

theorem reportGround_of_errcode {n : Nat} (hexec : exec i s = .next s') (hcode : s'.errcode = n) :
    ReportGround i s n :=
  hcode ▸ exec_errcode_ground hexec

end

/-- R204: the commands that look at RSTAT are the three that build a header. -/
theorem eq_builder_of_ne {i : Instr} (hi : i ≠ .csum ∧ ∀ pr w, i ≠ .encode pr w) :
    i = .iphdr ∨ (∃ p, i = .tcphdr p) ∨ ∃ p, i = .assemble p := by
  cases i with
  | encode pr w => exact absurd rfl (hi.2 pr w)
  | csum => exact absurd rfl hi.1
  | tcphdr p => exact .inr (.inl ⟨p, rfl⟩)
  | iphdr => exact .inl rfl
  | assemble p => exact .inr (.inr ⟨p, rfl⟩)

/-- A command that reads no RSTAT comes out the same with any value there (R204). -/
theorem exec_withRstat {i : Instr} {s s' : State} {v : Word}
    (hsame : commandResult i { s with rstat := v } = commandResult i s) (h : exec i s = .next s') :
    exec i { s with rstat := v } = .next { s' with rstat := v } := by
  obtain ⟨r, hr, rfl⟩ := (exec_next_iff i s s').1 h
  exact (exec_next_iff _ _ _).2 ⟨r, hsame.trans hr, (s.settle_withRstat v r).symm⟩

/-! ### The statements -/

/-- Settles O37: each clause is the ground of its code (`exec_errcode_ground`). -/
theorem eachErrorHasItsCommands : Obligations.EachErrorHasItsCommands := by
  intro i s s' hwf hexec herr
  have hground {n : Nat} (hcode : s'.errcode = n) := reportGround_of_errcode hexec hcode
  refine ⟨hground, fun hcode => (hground hcode).1, fun hcode => eq_builder_of_ne (hground hcode).2,
    fun hcode => (hground hcode).1, fun hcode => ?_, ?_⟩
  · obtain hcsum | hwide := hground hcode
    · exact hcsum
    · cases hwf.symm.trans hwide
  · obtain ⟨e, -, rfl⟩ := exec_err hexec herr
    rw [State.raise_errcode]
    exact e.code_range

/-- Settles O38: the resolution check is the first of the three commands' checks, and ENCODE and CSUM have none. -/
theorem resolutionFailureComesFirst : Obligations.ResolutionFailureComesFirst := by
  refine fun p s => ⟨fun hmark => ?_, fun i s' hexec hcode => reportGround_of_errcode hexec hcode,
    fun pr w v s' => ⟨exec_withRstat rfl, exec_withRstat rfl⟩⟩
  intro report
  have hreport : s.raise (.addressResolution (BitVec.ofNat 8 s.failMark)) = report :=
    State.raise_eq_reporting (statusError_failMark s)
  rw [← hreport]
  exact ⟨exec_tcphdr_of_failed hmark, exec_iphdr_of_failed hmark, exec_assemble_of_failed hmark⟩

/-- Settles O39: the ground of code 4, and the report it leads to (`exec_csum_of_ragged`). -/
theorem checksumLengthErrorIsCsumsAlone : Obligations.ChecksumLengthErrorIsCsumsAlone := by
  refine fun i s s' hexec => ⟨reportGround_of_errcode hexec, ?_⟩
  rintro ⟨rfl, hle, hragged⟩
  cases (exec_csum_of_ragged hle hragged).symm.trans hexec
  exact s.raise_errcode .checksumLength

/-- Settles O40: the ground of code 2, and the report of `ip_build` for widths that do not add to 160, which ASSEMBLE
passes on. -/
theorem headerLengthErrorNeedsOtherWidths : Obligations.HeaderLengthErrorNeedsOtherWidths := by
  refine ⟨fun i s s' hexec hcode => (reportGround_of_errcode hexec hcode).1,
    fun i s s' hw hexec hcode => (reportGround_of_errcode hexec hcode).2 hw, fun p s hclear hplen hfits hsum => ?_⟩
  have hbuild := ipBuild_of_wrong_widths hplen hfits (.inl hsum)
  exact ⟨exec_iphdr_of_error hclear hbuild, exec_assemble_of_ipBuild_error hclear hbuild⟩

end Sys2Proof.Machine
end

section
/-! Reading PBUF (R235, log entry 1): a command stops exactly where its checks pass and its input holds an unwritten
byte, and the checks keep that input inside PBUF. -/

namespace Sys2Proof.Machine

/-! ### When the checks ahead of the read pass (R121, R140, R180) -/

section
variable {s : State} {p : Place}

theorem csumChecks_ok_iff : csumChecks s = .ok () ↔ s.clen.toNat ≤ 524288 ∧ s.clen.toNat % 16 = 0 := by
  by_cases hlong : 524288 < s.clen.toNat
  · have hchecks : csumChecks s = .error (.illegalCommand 5) := if_pos hlong
    simp [hchecks, hlong]
  · have hchecks : csumChecks s = if s.clen.toNat % 16 ≠ 0 then .error .checksumLength else .ok () := if_neg hlong
    by_cases hwhole : s.clen.toNat % 16 = 0 <;> simp [hchecks, hwhole, Nat.not_lt.1 hlong]

theorem tcphdrChecks_ok_iff {front : BitString} :
    tcphdrChecks p s = .ok front ↔ s.failMark = 0 ∧ tcpPrepare p s = .ok front := by
  by_cases hmark : s.failMark = 0
  · simp [tcphdrChecks, resolved_of_clear hmark, hmark]
  · simp [tcphdrChecks, resolved_of_failed hmark, hmark]

theorem assembleChecks_ok_iff {front : BitString} :
    assembleChecks p s = .ok front ↔ s.failMark = 0 ∧ (∃ h, ipBuild s = .ok h) ∧ tcpPrepare p s = .ok front := by
  by_cases hmark : s.failMark = 0
  · cases hbuild : ipBuild s <;> simp [assembleChecks, resolved_of_clear hmark, hmark, hbuild]
  · simp [assembleChecks, resolved_of_failed hmark, hmark]

/-- R143, R202: behind the TCP builder's checks the payload is well inside PBUF. -/
theorem plen_le_of_tcpPrepare {front : BitString} (h : tcpPrepare p s = .ok front) : s.plen.toNat ≤ 65515 := by
  obtain ⟨ps, -, hps, -⟩ := tcpPrepare_ok h
  have hlength := segmentLength_of_pseudo hps
  omega

end

/-! ### The stop -/

theorem inputResult_eq_error_iff {α : Type} {input : Except Nat (List Byte)} {checks : Except Error α}
    {build : List Byte → Except Error Result} {k : Nat} :
    inputResult input checks build = .error k ↔ input = .error k ∧ ∃ u, checks = .ok u := by
  unfold inputResult
  cases input <;> cases checks <;> simp

theorem exec_fault_iff (i : Instr) (s : State) (k : Nat) :
    exec i s = .fault (.unwrittenPayload k) ↔ commandResult i s = .error k := by
  rw [exec_eq]
  cases commandResult i s <;> simp [settleOutcome]

/-- A command that stops has tried to read a block of PBUF, from index 0 and no longer than PBUF. -/
theorem commandResult_error {i : Instr} {s : State} {k : Nat} (h : commandResult i s = .error k) :
    ∃ n ≤ pbufSize, Memory.readBlock s.pbuf 0 n = .error k := by
  cases i with
  | encode pr w => cases h
  | csum =>
    obtain ⟨hread, u, hchecks⟩ := inputResult_eq_error_iff.1 h
    obtain ⟨hclen, -⟩ := csumChecks_ok_iff.1 hchecks
    exact ⟨s.clen.toNat / 8, Nat.div_le_of_le_mul hclen, hread⟩
  | tcphdr p =>
    obtain ⟨hread, front, hchecks⟩ := inputResult_eq_error_iff.1 h
    obtain ⟨-, hprep⟩ := tcphdrChecks_ok_iff.1 hchecks
    exact ⟨s.plen.toNat, (plen_le_of_tcpPrepare hprep).trans (by decide), hread⟩
  | iphdr => cases h
  | assemble p =>
    obtain ⟨hread, front, hchecks⟩ := inputResult_eq_error_iff.1 h
    obtain ⟨-, -, hprep⟩ := assembleChecks_ok_iff.1 hchecks
    exact ⟨s.plen.toNat, (plen_le_of_tcpPrepare hprep).trans (by decide), hread⟩

/-- A command goes on to a next state, or it stops at an unwritten byte of PBUF. -/
theorem exec_next_or_unwritten (i : Instr) {s : State} (hwf : Memory.wf s.pbuf) :
    (∃ s', exec i s = .next s') ∨
    ∃ k, exec i s = .fault (.unwrittenPayload k) ∧ k < pbufSize ∧ Memory.read s.pbuf k = none := by
  cases hresult : commandResult i s with
  | ok r => exact .inl ⟨s.settle r, (exec_next_iff _ _ _).2 ⟨r, hresult, rfl⟩⟩
  | error k =>
    obtain ⟨n, hn, hread⟩ := commandResult_error hresult
    obtain ⟨bs, hbs, -⟩ | ⟨j, hj, -, hjn, hnone, -⟩ := Memory.readBlock_spec hwf 0 n
    · cases hread.symm.trans hbs
    · obtain rfl := Except.error.inj (hread.symm.trans hj)
      exact .inr ⟨k, (exec_fault_iff _ _ _).2 hresult, by omega, hnone⟩

/-! ### The statements -/

/-- Settles O33: the checks ahead of the read pass, and the read names the first unwritten byte. -/
theorem readingAnUnwrittenPayloadByteStops : Obligations.ReadingAnUnwrittenPayloadByteStops := by
  intro s i hwf hnone hbefore
  have hread {n : Nat} (hn : i < n) : Memory.readBlock s.pbuf 0 n = .error i :=
    Memory.readBlock_of_unwritten hwf (Nat.zero_le i) (by omega) hnone fun j _ hj => hbefore j hj
  refine ⟨fun hclen hwhole hi => (exec_fault_iff _ _ _).2 ?_, fun p hclear hsport hdport hwindow hplen hi => ?_⟩
  · exact inputResult_eq_error_iff.2 ⟨hread hi, (), csumChecks_ok_iff.2 ⟨hclen, hwhole⟩⟩
  · obtain ⟨front, hprep⟩ := tcpPrepare_of_fits (p := p) hsport hdport hwindow hplen
    refine ⟨(exec_fault_iff _ _ _).2 ?_, fun s₁ hip hdone => (exec_fault_iff _ _ _).2 ?_⟩
    · exact inputResult_eq_error_iff.2 ⟨hread hi, front, tcphdrChecks_ok_iff.2 ⟨hclear, hprep⟩⟩
    · obtain ⟨h, hbuild, -⟩ := exec_iphdr_done hip hdone
      exact inputResult_eq_error_iff.2 ⟨hread hi, front, assembleChecks_ok_iff.2 ⟨hclear, ⟨h, hbuild⟩, hprep⟩⟩

/-- Settles O43: a word that decodes runs its command (`exec_next_or_unwritten`), and any other word is reported. -/
theorem everyCommandWriteEnds : Obligations.EveryCommandWriteEnds := by
  intro c s hwf
  cases hdecode : decode c with
  | ok i =>
    rw [runCommand_of_decode_ok hdecode]
    exact exec_next_or_unwritten i (s := s.beginCommand c) hwf
  | error w => exact .inl ⟨_, runCommand_of_decode_error hdecode s⟩

end Sys2Proof.Machine
end
